-- ==== Sys2Proof/Word.lean ====
section
/-! DEFINITION. The word types of the machine: the byte of memory, the instruction word and its fields
(spec/30_encoding.md R72), and the key of a key event (spec/60_exceptions.md R249). The sizes and widths of the state itself
are parameters of Config. All values are unsigned (R8). -/

namespace Sys2Proof

/-- One byte: a memory cell, a general register, an immediate `kk` (R20, R50, R72). -/
abbrev Byte := BitVec 8

/-- Sixteen bits: an instruction word, a return-stack slot (R29, R70). -/
abbrev Word := BitVec 16

/-- A 12-bit address literal `nnn` (R72, R73). -/
abbrev Addr12 := BitVec 12

/-- A general register's index 0..15 (R20, R73). -/
abbrev RegIdx := Fin 16

/-- A key's logical value 0..15 (R35, R249). -/
abbrev KeyIdx := Fin 16

/-- A sprite's row count 0..15, the field `n` of DXYN (R73). -/
abbrev Count := Fin 16

/-- The index of VF, the flag register (R21). -/
abbrev VF : RegIdx := 15

end Sys2Proof
end

