-- ==== Sys2Proof/Syntax.lean ====
section
/-! DEFINITION. The instructions as syntax: one constructor per row of spec/opcode_table.json, in the order of the opcode
map of spec/30_encoding.md R75. Each constructor's name is the row's "operation", and its arguments are the operand
fields the row's "format" lists (R72, R73). -/

namespace Sys2Proof

/-- The decoded operation (R85): exactly the 35 variants of R75's `operation` column. The outcome `Unrecognized(w)` is not
one of them: the decoder answers it beside this type (Sys2Proof/Decode.lean). -/
inductive Instr where
  /-- 00E0, `CLS` (R190). -/
  | cls
  /-- 00EE, `RET` (R121). -/
  | ret
  /-- 0NNN, `SYS nnn`, nnn neither 0x0E0 nor 0x0EE (R120, R76). -/
  | sys (nnn : Addr12)
  /-- 1NNN, `JP nnn` (R122). -/
  | jp (nnn : Addr12)
  /-- 2NNN, `CALL nnn` (R123). -/
  | call (nnn : Addr12)
  /-- 3XKK, `SE Vx, kk` (R124). -/
  | seImm (x : RegIdx) (kk : Byte)
  /-- 4XKK, `SNE Vx, kk` (R125). -/
  | sneImm (x : RegIdx) (kk : Byte)
  /-- 5XY0, `SE Vx, Vy` (R126). -/
  | seReg (x y : RegIdx)
  /-- 6XKK, `LD Vx, kk` (R140). -/
  | ldImm (x : RegIdx) (kk : Byte)
  /-- 7XKK, `ADD Vx, kk` (R141). -/
  | addImm (x : RegIdx) (kk : Byte)
  /-- 8XY0, `LD Vx, Vy` (R142). -/
  | ldReg (x y : RegIdx)
  /-- 8XY1, `OR Vx, Vy` (R143). -/
  | or (x y : RegIdx)
  /-- 8XY2, `AND Vx, Vy` (R144). -/
  | and (x y : RegIdx)
  /-- 8XY3, `XOR Vx, Vy` (R145). -/
  | xor (x y : RegIdx)
  /-- 8XY4, `ADD Vx, Vy` (R150). -/
  | addReg (x y : RegIdx)
  /-- 8XY5, `SUB Vx, Vy` (R151). -/
  | sub (x y : RegIdx)
  /-- 8XY6, `SHR Vx, Vy` (R152). -/
  | shr (x y : RegIdx)
  /-- 8XY7, `SUBN Vx, Vy` (R153). -/
  | subn (x y : RegIdx)
  /-- 8XYE, `SHL Vx, Vy` (R154). -/
  | shl (x y : RegIdx)
  /-- 9XY0, `SNE Vx, Vy` (R127). -/
  | sneReg (x y : RegIdx)
  /-- ANNN, `LD I, nnn` (R171). -/
  | ldI (nnn : Addr12)
  /-- BNNN, `JP V0, nnn` (R128). -/
  | jpV0 (nnn : Addr12)
  /-- CXKK, `RND Vx, kk` (R159). -/
  | rnd (x : RegIdx) (kk : Byte)
  /-- DXYN, `DRW Vx, Vy, n` (R192). -/
  | drw (x y : RegIdx) (n : Count)
  /-- EX9E, `SKP Vx` (R210). -/
  | skp (x : RegIdx)
  /-- EXA1, `SKNP Vx` (R211). -/
  | sknp (x : RegIdx)
  /-- FX07, `LD Vx, DT` (R212). -/
  | ldVxDt (x : RegIdx)
  /-- FX0A, `LD Vx, K` (R216). -/
  | ldVxK (x : RegIdx)
  /-- FX15, `LD DT, Vx` (R213). -/
  | ldDtVx (x : RegIdx)
  /-- FX18, `LD ST, Vx` (R214). -/
  | ldStVx (x : RegIdx)
  /-- FX1E, `ADD I, Vx` (R172). -/
  | addI (x : RegIdx)
  /-- FX29, `LD F, Vx` (R173). -/
  | ldF (x : RegIdx)
  /-- FX33, `LD B, Vx` (R175). -/
  | ldB (x : RegIdx)
  /-- FX55, `LD [I], Vx` (R176). -/
  | storeRegs (x : RegIdx)
  /-- FX65, `LD Vx, [I]` (R177). -/
  | loadRegs (x : RegIdx)
  deriving DecidableEq, Repr

end Sys2Proof
end

