-- ==== Sys2Proof/WellFormed.lean ====
section
/-! DEFINITION. Which terms of Instr stand for an instruction word. Every operand's range is carried by its type (R73); the
one relation left to check is R76's: CLS and RET take the words 0x00E0 and 0x00EE, so no SYS has those literals. -/

namespace Sys2Proof

/-- R76, R120: the literal of a SYS is neither 0x0E0 (that word is CLS) nor 0x0EE (that word is RET). -/
def sysLiteralOk (nnn : Addr12) : Bool := nnn != 0x0E0 && nnn != 0x0EE

/-- The instruction has an encoding of its own (R75, R76). -/
def Instr.wellFormed : Instr → Bool
  | .sys nnn => sysLiteralOk nnn
  | .cls => true
  | .ret => true
  | .jp _ => true
  | .call _ => true
  | .seImm _ _ => true
  | .sneImm _ _ => true
  | .seReg _ _ => true
  | .ldImm _ _ => true
  | .addImm _ _ => true
  | .ldReg _ _ => true
  | .or _ _ => true
  | .and _ _ => true
  | .xor _ _ => true
  | .addReg _ _ => true
  | .sub _ _ => true
  | .shr _ _ => true
  | .subn _ _ => true
  | .shl _ _ => true
  | .sneReg _ _ => true
  | .ldI _ => true
  | .jpV0 _ => true
  | .rnd _ _ => true
  | .drw _ _ _ => true
  | .skp _ => true
  | .sknp _ => true
  | .ldVxDt _ => true
  | .ldVxK _ => true
  | .ldDtVx _ => true
  | .ldStVx _ => true
  | .addI _ => true
  | .ldF _ => true
  | .ldB _ => true
  | .storeRegs _ => true
  | .loadRegs _ => true

end Sys2Proof
end

