-- ==== Sys2Proof/Decode.lean ====
section
/-! DEFINITION. Decoding and encoding of the 16-bit instruction words (spec/30_encoding.md). Decoding is a pure function of the
word (R71, R103), total on all 65536 words: one operation, or Unrecognized by name (R83, R85). The encoder, after it, is
written from the same opcode map (R75). `opcodeTable` is that map once more, as masks and patterns. -/

namespace Sys2Proof

/-- Two bytes as one big-endian word, the first byte high (R58, R102): `hi ‖ lo`. -/
def wordOfBytes (hi lo : Byte) : Word := hi ++ lo

/-- The bytes of a word as memory stores them, high byte first (R58). -/
def bytesOfWord (w : Word) : List Byte := [w.extractLsb' 8 8, w.extractLsb' 0 8]

/-- The leading nibble `op` = w[15:12], the family (R72, R74). -/
def fieldOp (w : Word) : Nat := (w.extractLsb' 12 4).toNat

/-- The first register index `x` = w[11:8] (R72). -/
def fieldX (w : Word) : RegIdx := (w.extractLsb' 8 4).toFin

/-- The second register index `y` = w[7:4] (R72). -/
def fieldY (w : Word) : RegIdx := (w.extractLsb' 4 4).toFin

/-- The last nibble `n` = w[3:0]: the sub-opcode of families 0x5, 0x8 and 0x9, the row count of DXYN (R72). -/
def fieldN (w : Word) : Count := (w.extractLsb' 0 4).toFin

/-- The immediate byte `kk` = w[7:0], also the sub-opcode of families 0xE and 0xF (R72). -/
def fieldKK (w : Word) : Byte := w.extractLsb' 0 8

/-- The address literal `nnn` = w[11:0] (R72). -/
def fieldNNN (w : Word) : Addr12 := w.extractLsb' 0 12

/-- Why bytes are no instruction. -/
inductive Reject where
  /-- `Unrecognized(w)`: the word is not in the opcode map (R83, R85). -/
  | unrecognized (w : Word)
  /-- Fewer than the two bytes of a word (R70). The step cycle never meets it: a fetch reads both bytes or faults (R102). -/
  | truncated (bytes : List Byte)
  deriving DecidableEq, Repr

/-- Family 0x0, decoded on w[11:0]: CLS and RET first, every other literal is SYS (R76). -/
def decodeFamily0 (w : Word) : Except Reject Instr :=
  match (fieldNNN w).toNat with
  | 0x0E0 => .ok .cls
  | 0x0EE => .ok .ret
  | _ => .ok (.sys (fieldNNN w))

/-- Families 0x5 and 0x9, recognized only with n = 0 (R77). -/
def decodeNibble0 (op : RegIdx → RegIdx → Instr) (w : Word) : Except Reject Instr :=
  match (fieldN w).val with
  | 0x0 => .ok (op (fieldX w) (fieldY w))
  | _ => .error (.unrecognized w)

/-- Family 0x8, decoded on n (R78). -/
def decodeFamily8 (w : Word) : Except Reject Instr :=
  match (fieldN w).val with
  | 0x0 => .ok (.ldReg (fieldX w) (fieldY w))
  | 0x1 => .ok (.or (fieldX w) (fieldY w))
  | 0x2 => .ok (.and (fieldX w) (fieldY w))
  | 0x3 => .ok (.xor (fieldX w) (fieldY w))
  | 0x4 => .ok (.addReg (fieldX w) (fieldY w))
  | 0x5 => .ok (.sub (fieldX w) (fieldY w))
  | 0x6 => .ok (.shr (fieldX w) (fieldY w))
  | 0x7 => .ok (.subn (fieldX w) (fieldY w))
  | 0xE => .ok (.shl (fieldX w) (fieldY w))
  | _ => .error (.unrecognized w)

/-- Family 0xE, decoded on kk (R79). -/
def decodeFamilyE (w : Word) : Except Reject Instr :=
  match (fieldKK w).toNat with
  | 0x9E => .ok (.skp (fieldX w))
  | 0xA1 => .ok (.sknp (fieldX w))
  | _ => .error (.unrecognized w)

/-- Family 0xF, decoded on kk (R80). -/
def decodeFamilyF (w : Word) : Except Reject Instr :=
  match (fieldKK w).toNat with
  | 0x07 => .ok (.ldVxDt (fieldX w))
  | 0x0A => .ok (.ldVxK (fieldX w))
  | 0x15 => .ok (.ldDtVx (fieldX w))
  | 0x18 => .ok (.ldStVx (fieldX w))
  | 0x1E => .ok (.addI (fieldX w))
  | 0x29 => .ok (.ldF (fieldX w))
  | 0x33 => .ok (.ldB (fieldX w))
  | 0x55 => .ok (.storeRegs (fieldX w))
  | 0x65 => .ok (.loadRegs (fieldX w))
  | _ => .error (.unrecognized w)

/-- Decode one instruction word: first on the leading nibble, then on the trailing nibbles where the family needs it (R71,
R74 to R81). The last arm is met by no word, since the leading nibble has sixteen values; like every wildcard of this file
but SYS's it answers Unrecognized (R85). -/
def decodeWord (w : Word) : Except Reject Instr :=
  match fieldOp w with
  | 0x0 => decodeFamily0 w
  | 0x1 => .ok (.jp (fieldNNN w))
  | 0x2 => .ok (.call (fieldNNN w))
  | 0x3 => .ok (.seImm (fieldX w) (fieldKK w))
  | 0x4 => .ok (.sneImm (fieldX w) (fieldKK w))
  | 0x5 => decodeNibble0 .seReg w
  | 0x6 => .ok (.ldImm (fieldX w) (fieldKK w))
  | 0x7 => .ok (.addImm (fieldX w) (fieldKK w))
  | 0x8 => decodeFamily8 w
  | 0x9 => decodeNibble0 .sneReg w
  | 0xA => .ok (.ldI (fieldNNN w))
  | 0xB => .ok (.jpV0 (fieldNNN w))
  | 0xC => .ok (.rnd (fieldX w) (fieldKK w))
  | 0xD => .ok (.drw (fieldX w) (fieldY w) (fieldN w))
  | 0xE => decodeFamilyE w
  | 0xF => decodeFamilyF w
  | _ => .error (.unrecognized w)

/-- Decode the instruction at the head of a byte sequence and return it with the rest: every instruction is two bytes, high
byte first (R58, R70). -/
def decodeBytes : List Byte → Except Reject (Instr × List Byte)
  | hi :: lo :: rest =>
    match decodeWord (wordOfBytes hi lo) with
    | .ok i => .ok (i, rest)
    | .error r => .error r
  | bytes => .error (.truncated bytes)

/-- The host's view of the decoder: the instruction read from the word whose bits the opcode table numbers as `w`. The table
numbers the one word of an instruction with bit 0 least significant, so its low 16 bits are laid out high byte first. -/
def decodeTableWord (nbits w : Nat) : Option Instr :=
  match decodeBytes (bytesOfWord (BitVec.ofNat 16 (w % 2 ^ nbits))) with
  | .ok (i, _) => some i
  | .error _ => none

/-! ### The encoder -/

/-- Pattern `pNNN`: the leading nibble and a 12-bit literal (R72, R75). -/
def encNNN (p : Nat) (nnn : Addr12) : Word := BitVec.ofNat 16 (p * 0x1000 + nnn.toNat)

/-- Pattern `pXKK`: the leading nibble, a register index and a byte (R72, R75). -/
def encXKK (p : Nat) (x : RegIdx) (kk : Nat) : Word := BitVec.ofNat 16 (p * 0x1000 + x.val * 0x100 + kk)

/-- Pattern `pXYn`: the leading nibble, two register indices and a nibble (R72, R75). -/
def encXYN (p : Nat) (x y : RegIdx) (n : Nat) : Word :=
  BitVec.ofNat 16 (p * 0x1000 + x.val * 0x100 + y.val * 0x10 + n)

/-- The word of an instruction: the `pattern` column of R75, row by row. -/
def encode : Instr → Word
  | .cls => 0x00E0
  | .ret => 0x00EE
  | .sys nnn => encNNN 0x0 nnn
  | .jp nnn => encNNN 0x1 nnn
  | .call nnn => encNNN 0x2 nnn
  | .seImm x kk => encXKK 0x3 x kk.toNat
  | .sneImm x kk => encXKK 0x4 x kk.toNat
  | .seReg x y => encXYN 0x5 x y 0x0
  | .ldImm x kk => encXKK 0x6 x kk.toNat
  | .addImm x kk => encXKK 0x7 x kk.toNat
  | .ldReg x y => encXYN 0x8 x y 0x0
  | .or x y => encXYN 0x8 x y 0x1
  | .and x y => encXYN 0x8 x y 0x2
  | .xor x y => encXYN 0x8 x y 0x3
  | .addReg x y => encXYN 0x8 x y 0x4
  | .sub x y => encXYN 0x8 x y 0x5
  | .shr x y => encXYN 0x8 x y 0x6
  | .subn x y => encXYN 0x8 x y 0x7
  | .shl x y => encXYN 0x8 x y 0xE
  | .sneReg x y => encXYN 0x9 x y 0x0
  | .ldI nnn => encNNN 0xA nnn
  | .jpV0 nnn => encNNN 0xB nnn
  | .rnd x kk => encXKK 0xC x kk.toNat
  | .drw x y n => encXYN 0xD x y n.val
  | .skp x => encXKK 0xE x 0x9E
  | .sknp x => encXKK 0xE x 0xA1
  | .ldVxDt x => encXKK 0xF x 0x07
  | .ldVxK x => encXKK 0xF x 0x0A
  | .ldDtVx x => encXKK 0xF x 0x15
  | .ldStVx x => encXKK 0xF x 0x18
  | .addI x => encXKK 0xF x 0x1E
  | .ldF x => encXKK 0xF x 0x29
  | .ldB x => encXKK 0xF x 0x33
  | .storeRegs x => encXKK 0xF x 0x55
  | .loadRegs x => encXKK 0xF x 0x65

/-- The bytes of an instruction as memory stores them (R58). -/
def encodeBytes (i : Instr) : List Byte := bytesOfWord (encode i)

/-! ### The opcode map as masks and patterns -/

/-- One row of spec/opcode_table.json: the row's word is selected when its masked bits equal the pattern and it is none of the
excluded words (spec/INDEX.md). -/
structure OpcodeRow where
  /-- The row's "mask". -/
  mask : Word
  /-- The row's "match". -/
  pattern : Word
  /-- The row's "excludes" (the SYS row's two words). -/
  excludes : List Word
  /-- The row's "operation", with the operand fields its "format" lists. -/
  build : Word → Instr

/-- The word selects the row. -/
def OpcodeRow.selects (r : OpcodeRow) (w : Word) : Bool := (w &&& r.mask == r.pattern) && !r.excludes.contains w

/-- The table's rows of families 0x0 to 0x7. -/
def opcodeTableLow : List OpcodeRow :=
  [ ⟨0xFFFF, 0x00E0, [], fun _ => .cls⟩,
    ⟨0xFFFF, 0x00EE, [], fun _ => .ret⟩,
    ⟨0xF000, 0x0000, [0x00E0, 0x00EE], fun w => .sys (fieldNNN w)⟩,
    ⟨0xF000, 0x1000, [], fun w => .jp (fieldNNN w)⟩,
    ⟨0xF000, 0x2000, [], fun w => .call (fieldNNN w)⟩,
    ⟨0xF000, 0x3000, [], fun w => .seImm (fieldX w) (fieldKK w)⟩,
    ⟨0xF000, 0x4000, [], fun w => .sneImm (fieldX w) (fieldKK w)⟩,
    ⟨0xF00F, 0x5000, [], fun w => .seReg (fieldX w) (fieldY w)⟩,
    ⟨0xF000, 0x6000, [], fun w => .ldImm (fieldX w) (fieldKK w)⟩,
    ⟨0xF000, 0x7000, [], fun w => .addImm (fieldX w) (fieldKK w)⟩ ]

/-- The table's rows of families 0x8 to 0xD. -/
def opcodeTableMid : List OpcodeRow :=
  [ ⟨0xF00F, 0x8000, [], fun w => .ldReg (fieldX w) (fieldY w)⟩,
    ⟨0xF00F, 0x8001, [], fun w => .or (fieldX w) (fieldY w)⟩,
    ⟨0xF00F, 0x8002, [], fun w => .and (fieldX w) (fieldY w)⟩,
    ⟨0xF00F, 0x8003, [], fun w => .xor (fieldX w) (fieldY w)⟩,
    ⟨0xF00F, 0x8004, [], fun w => .addReg (fieldX w) (fieldY w)⟩,
    ⟨0xF00F, 0x8005, [], fun w => .sub (fieldX w) (fieldY w)⟩,
    ⟨0xF00F, 0x8006, [], fun w => .shr (fieldX w) (fieldY w)⟩,
    ⟨0xF00F, 0x8007, [], fun w => .subn (fieldX w) (fieldY w)⟩,
    ⟨0xF00F, 0x800E, [], fun w => .shl (fieldX w) (fieldY w)⟩,
    ⟨0xF00F, 0x9000, [], fun w => .sneReg (fieldX w) (fieldY w)⟩,
    ⟨0xF000, 0xA000, [], fun w => .ldI (fieldNNN w)⟩,
    ⟨0xF000, 0xB000, [], fun w => .jpV0 (fieldNNN w)⟩,
    ⟨0xF000, 0xC000, [], fun w => .rnd (fieldX w) (fieldKK w)⟩,
    ⟨0xF000, 0xD000, [], fun w => .drw (fieldX w) (fieldY w) (fieldN w)⟩ ]

/-- The table's rows of families 0xE and 0xF. -/
def opcodeTableHigh : List OpcodeRow :=
  [ ⟨0xF0FF, 0xE09E, [], fun w => .skp (fieldX w)⟩,
    ⟨0xF0FF, 0xE0A1, [], fun w => .sknp (fieldX w)⟩,
    ⟨0xF0FF, 0xF007, [], fun w => .ldVxDt (fieldX w)⟩,
    ⟨0xF0FF, 0xF00A, [], fun w => .ldVxK (fieldX w)⟩,
    ⟨0xF0FF, 0xF015, [], fun w => .ldDtVx (fieldX w)⟩,
    ⟨0xF0FF, 0xF018, [], fun w => .ldStVx (fieldX w)⟩,
    ⟨0xF0FF, 0xF01E, [], fun w => .addI (fieldX w)⟩,
    ⟨0xF0FF, 0xF029, [], fun w => .ldF (fieldX w)⟩,
    ⟨0xF0FF, 0xF033, [], fun w => .ldB (fieldX w)⟩,
    ⟨0xF0FF, 0xF055, [], fun w => .storeRegs (fieldX w)⟩,
    ⟨0xF0FF, 0xF065, [], fun w => .loadRegs (fieldX w)⟩ ]

/-- spec/opcode_table.json, all 35 rows in its order. The decoder does not read it: a statement says that the two agree. -/
def opcodeTable : List OpcodeRow := opcodeTableLow ++ opcodeTableMid ++ opcodeTableHigh

end Sys2Proof
end

