-- ==== Sys2Proof/Config.lean ====
section
/-! DEFINITION. What an implementation fixes (the parameters of spec/00_scope.md R7) and the one free value of the machine
(the random byte of CXKK, spec/42_alu.md R159). The parameters' values stand in Sys2Proof/Machine/Params.lean. -/

namespace Sys2Proof

/-- `SHIFT_SOURCE` (R7, R149): the register the two shifts read as their operand. -/
inductive ShiftSource where
  /-- The operand is Vx and the y field is ignored: this spec's value. -/
  | vx
  /-- The operand is Vy: the other historical variant. -/
  | vy
  deriving DecidableEq, Repr

/-- The parameters of R7, one field each. The sizes and widths of State's fields are these; the operand types of Word.lean are the
fields of the instruction word (R72), which no parameter moves. -/
structure Config where
  /-- `MEM_SIZE`: bytes of memory. -/
  memSize : Nat
  /-- `PROG_START`: address of the first program byte and the PC at construction. -/
  progStart : Nat
  /-- `NUM_V`: general registers, each 8 bits. -/
  numV : Nat
  /-- `I_WIDTH`: bits of the address register I. -/
  iWidth : Nat
  /-- `PC_WIDTH`: bits of the program counter. -/
  pcWidth : Nat
  /-- `STACK_DEPTH`: return-stack entries, any value from 16 up. -/
  stackDepth : Nat
  /-- `FONT_BASE`: address of the font table. -/
  fontBase : Nat
  /-- `FONT_TABLE`: the 80 font bytes, glyph by glyph. -/
  fontTable : List Byte
  /-- `DISP_W`: display columns. -/
  dispW : Nat
  /-- `DISP_H`: display rows. -/
  dispH : Nat
  /-- `NUM_KEYS`: keypad keys. -/
  numKeys : Nat
  /-- `TIMER_WIDTH`: bits of each timer. -/
  timerWidth : Nat
  /-- `TICK_RATE`: calls of `tick_timers()` in a second, where something fixes it; the core does not, and nothing reads it
  (R277). -/
  tickRate : Option Nat
  /-- `SHIFT_SOURCE`: the operand of 8XY6 and 8XYE. -/
  shiftSource : ShiftSource
  deriving DecidableEq, Repr

/-- The number of font bytes: 16 glyphs of 5 bytes (R55). -/
def Config.fontSize : Nat := 80

/-- What R7, R55 and R270 require of the parameters, whatever their values. -/
def Config.wf (c : Config) : Bool :=
  c.numV == 16 && c.iWidth == 16 && c.pcWidth == 16 && c.dispW == 64 && c.dispH == 32 && c.numKeys == 16 &&
    c.timerWidth == 8 && c.memSize == 0x1000 && c.progStart == 0x200 && decide (16 ≤ c.stackDepth) &&
    decide (c.fontBase + Config.fontSize ≤ c.progStart) && c.fontTable.length == Config.fontSize

/-- FREE VALUE. The byte `Rand()` of the n-th CXKK that the machine executes (R159, R38): nothing constrains it, so whatever is
proved holds for every draw. notes/assumptions/2.md. -/
opaque Config.randByte : Nat → Byte

end Sys2Proof
end

