-- ==== Sys2Proof/Machine/Params.lean ====
section
/-! DEFINITION. The values of the parameters (spec/00_scope.md R7) and what memory holds at construction (R42, R56). They
stand here, and not in Config.lean, because the source leaves four of them open (the spec's decisions D2, D3, D4 and D5):
a later finding about one of them is a change of one body in this file. -/

namespace Sys2Proof.Machine

/-- `FONT_TABLE`, R56: the 16 glyphs of the hexadecimal digits, five rows each. -/
def fontGlyphs : List Byte :=
  [0xF0, 0x90, 0x90, 0x90, 0xF0] ++   -- 0
  [0x20, 0x60, 0x20, 0x20, 0x70] ++   -- 1
  [0xF0, 0x10, 0xF0, 0x80, 0xF0] ++   -- 2
  [0xF0, 0x10, 0xF0, 0x10, 0xF0] ++   -- 3
  [0x90, 0x90, 0xF0, 0x10, 0x10] ++   -- 4
  [0xF0, 0x80, 0xF0, 0x10, 0xF0] ++   -- 5
  [0xF0, 0x80, 0xF0, 0x90, 0xF0] ++   -- 6
  [0xF0, 0x10, 0x20, 0x40, 0x40] ++   -- 7
  [0xF0, 0x90, 0xF0, 0x90, 0xF0] ++   -- 8
  [0xF0, 0x90, 0xF0, 0x10, 0xF0] ++   -- 9
  [0xF0, 0x90, 0xF0, 0x90, 0x90] ++   -- A
  [0xE0, 0x90, 0xE0, 0x90, 0xE0] ++   -- B
  [0xF0, 0x80, 0x80, 0x80, 0xF0] ++   -- C
  [0xE0, 0x90, 0x90, 0x90, 0xE0] ++   -- D
  [0xF0, 0x80, 0xF0, 0x80, 0xF0] ++   -- E
  [0xF0, 0x80, 0xF0, 0x80, 0x80]      -- F

/-- `NUM_V` (R7). Like the six after it, it is reducible, so that the types of State's fields, whose sizes and widths these
parameters are, are plain word and vector types. -/
abbrev numVValue : Nat := 16

/-- `I_WIDTH` (R7). -/
abbrev iWidthValue : Nat := 16

/-- `PC_WIDTH` (R7). -/
abbrev pcWidthValue : Nat := 16

/-- `DISP_W` (R7). -/
abbrev dispWValue : Nat := 64

/-- `DISP_H` (R7). -/
abbrev dispHValue : Nat := 32

/-- `NUM_KEYS` (R7). -/
abbrev numKeysValue : Nat := 16

/-- `TIMER_WIDTH` (R7). -/
abbrev timerWidthValue : Nat := 8

/-- The parameters at the values of R7. The stack depth, the font base, the font table and the shift source are the spec's
decisions D2 to D5 (notes/assumptions/3.md to 6.md). -/
def config : Config where
  memSize := 0x1000
  progStart := 0x200
  numV := numVValue
  iWidth := iWidthValue
  pcWidth := pcWidthValue
  stackDepth := 16
  fontBase := 0x050
  fontTable := fontGlyphs
  dispW := dispWValue
  dispH := dispHValue
  numKeys := numKeysValue
  timerWidth := timerWidthValue
  tickRate := none
  shiftSource := .vx

/-- The parameters meet what the spec requires of them. -/
theorem config_wf : config.wf = true := by decide

/-- R50: addresses 0x000 to 0xFFF. -/
@[simp] theorem config_memSize : config.memSize = 0x1000 := rfl

/-- R7: the program starts at 0x200. -/
@[simp] theorem config_progStart : config.progStart = 0x200 := rfl

/-- R7: `NUM_V`. -/
@[simp] theorem numVValue_eq : numVValue = 16 := rfl

/-- R7: `NUM_V`. -/
@[simp] theorem config_numV : config.numV = 16 := rfl

/-- R7: `I_WIDTH`. -/
@[simp] theorem iWidthValue_eq : iWidthValue = 16 := rfl

/-- R7: `I_WIDTH`. -/
@[simp] theorem config_iWidth : config.iWidth = 16 := rfl

/-- R7: `PC_WIDTH`. -/
@[simp] theorem pcWidthValue_eq : pcWidthValue = 16 := rfl

/-- R7: `PC_WIDTH`. -/
@[simp] theorem config_pcWidth : config.pcWidth = 16 := rfl

/-- R7: `DISP_W`. -/
@[simp] theorem dispWValue_eq : dispWValue = 64 := rfl

/-- R7: `DISP_W`. -/
@[simp] theorem config_dispW : config.dispW = 64 := rfl

/-- R7: `DISP_H`. -/
@[simp] theorem dispHValue_eq : dispHValue = 32 := rfl

/-- R7: `DISP_H`. -/
@[simp] theorem config_dispH : config.dispH = 32 := rfl

/-- R7: `NUM_KEYS`. -/
@[simp] theorem numKeysValue_eq : numKeysValue = 16 := rfl

/-- R7: `NUM_KEYS`. -/
@[simp] theorem config_numKeys : config.numKeys = 16 := rfl

/-- R7: `TIMER_WIDTH`. -/
@[simp] theorem timerWidthValue_eq : timerWidthValue = 8 := rfl

/-- R7: `TIMER_WIDTH`. -/
@[simp] theorem config_timerWidth : config.timerWidth = 8 := rfl

/-- The font lies below the program area (R55). -/
theorem config_font_below_program : config.fontBase + Config.fontSize ≤ 0x200 := by decide

/-- The font table has 80 bytes (R55, R56). -/
theorem config_fontTable_length : config.fontTable.length = Config.fontSize := by decide

/-- The stack has at least 16 entries (R7). -/
theorem config_stackDepth_ge : 16 ≤ config.stackDepth := by decide

/-- The address lies in the font region, FONT_BASE to FONT_BASE + 79 (R55, R57). -/
abbrev inFont (a : Nat) : Prop := config.fontBase ≤ a ∧ a < config.fontBase + Config.fontSize

/-- R42: the byte that address `a` holds at construction: the font table's byte in the font region, 0 everywhere else. It
is also what an address that Memory does not list reads as. -/
def resetByte (a : Nat) : Byte :=
  if inFont a then config.fontTable.getD (a - config.fontBase) 0 else 0

end Sys2Proof.Machine
end

