-- ==== Sys2Proof/Machine/State.lean ====
section
/-! DEFINITION. The machine's state as plain data (spec/10_state.md), its value at construction (R42), and the reasons a step
can stop (spec/60_exceptions.md R230 and R238). -/

namespace Sys2Proof.Machine

/-- Memory (R39, R50): the bytes that differ from what construction left there, as (address, byte) pairs in strictly rising
order of address. An address not listed reads as `resetByte`. The form is `Memory.wf` of Ops.lean. -/
abbrev Memory := List Host.Cell

/-- The register file: `NUM_V` general registers of 8 bits (R20). -/
abbrev RegFile := Vector Byte numVValue

/-- A timer's value, `TIMER_WIDTH` bits (R32). -/
abbrev Timer := BitVec timerWidthValue

/-- A display row, 0 to `DISP_H` - 1 (R33). -/
abbrev Row := Fin dispHValue

/-- A display column, 0 to `DISP_W` - 1 (R33). -/
abbrev Col := Fin dispWValue

/-- The display (R33): 32 rows of 64 one-bit pixels; entry `[row][col]` is `px[row][col]`. -/
abbrev Screen := Vector (Vector Bool dispWValue) dispHValue

/-- The blank display: all 2048 pixels 0. -/
def Screen.blank : Screen := Vector.replicate dispHValue (Vector.replicate dispWValue false)

/-- The machine state: the record at the head of spec/10_state.md, and one field of the model's own (`draws`). -/
structure State where
  /-- Memory (R39, R50). -/
  mem : Memory
  /-- The general registers V0 to VF (R20, R21). -/
  v : RegFile
  /-- The address register I (R23). -/
  i : BitVec iWidthValue
  /-- The program counter (R24). -/
  pc : BitVec pcWidthValue
  /-- The stack pointer: the number of active entries, 0 to STACK_DEPTH (R28). -/
  sp : Nat
  /-- The return-stack slots (R29). -/
  stack : Vector Word config.stackDepth
  /-- The delay timer (R32). -/
  dt : Timer
  /-- The sound timer (R32). -/
  st : Timer
  /-- The display (R33). -/
  px : Screen
  /-- The display's "needs redraw" flag (R34). -/
  dirty : Bool
  /-- The sixteen key-down states (R35). -/
  key : Vector Bool numKeysValue
  /-- The keypad's "waiting" flag (R36, R37). -/
  waiting : Bool
  /-- The keypad's target register (R36). -/
  target : RegIdx
  /-- The wait-completion bit: the deferred PC advance of FX0A is due (R40). -/
  resume : Bool
  /-- THE MODEL'S OWN: how many random bytes have been drawn. It selects the free value `Config.randByte draws` of the next
  CXKK (R38: the random byte is a free input of the step, not machine state). notes/assumptions/2.md. -/
  draws : Nat
  deriving DecidableEq, Repr

/-- R42, R270: every field at its value at construction. Memory lists nothing, so it reads as `resetByte`: the font, and zero
elsewhere. `draws` is the model's own field and starts at 0 (notes/assumptions/2.md, DESIGN CHOICE). -/
def State.reset : State where
  mem := []
  v := Vector.replicate numVValue 0
  i := 0
  pc := BitVec.ofNat pcWidthValue config.progStart
  sp := 0
  stack := Vector.replicate config.stackDepth 0
  dt := 0
  st := 0
  px := Screen.blank
  dirty := false
  key := Vector.replicate numKeysValue false
  waiting := false
  target := 0
  resume := false
  draws := 0

/-- The four errors `step()` returns (R230). They are the hardware's own outcomes: the spec says the step ends in the error
and leaves the whole state as it was (R231), so none of them is a stop the model adds. -/
inductive Fault where
  /-- `UnrecognizedOpcode(w)` (R232): raised by the step cycle when the fetched word decodes to nothing. Safe: it is the
  outcome the spec gives. -/
  | unrecognizedOpcode (w : Word)
  /-- `MemoryOutOfBounds(a)` (R233): raised by a fetch, DXYN, FX33, FX55, FX65 and the program loader at the first address
  above 0xFFF. Safe as to going on; UNSAFE as to the claim that it happens, where the spec decided it (D14, D16, D22). -/
  | memoryOutOfBounds (a : Nat)
  /-- `StackOverflow` (R234): raised by CALL on a full stack. UNSAFE as to the claim that it happens at depth 16: the source
  says 16 or more (D2, notes/assumptions/3.md). -/
  | stackOverflow
  /-- `StackUnderflow` (R235): raised by RET on an empty stack. Safe: it is the outcome the spec gives. -/
  | stackUnderflow
  deriving DecidableEq, Repr

/-- The cases the spec refuses to give a meaning (R238), and the arm of an instruction that has none yet. -/
inductive Refusal where
  /-- An instruction without a meaning in this model. Safe. No arm of exec uses it. -/
  | notModelled (mnemonic : String)
  /-- `FontRegionWrite(a)` (R57): raised by FX33 and FX55 for the first byte they would write in the font region. Safe: a
  run that reaches it proves nothing. -/
  | fontRegionWrite (a : Nat)
  /-- `FontDigitOutOfRange(v)` (R173): raised by FX29 for a register value above 15. Safe. -/
  | fontDigitOutOfRange (v : Byte)
  /-- `KeyIndexOutOfRange(v)` (R215): raised by EX9E and EXA1 for a register value above 15. Safe. -/
  | keyIndexOutOfRange (v : Byte)
  deriving DecidableEq, Repr

/-- What a successful step reports to the driver (R107). -/
inductive StepOutcome where
  /-- `Executed(op)`: the instruction executed. -/
  | executed (i : Instr)
  /-- `Waiting`: suspended in a wait for a key, nothing done (R101). -/
  | waiting
  /-- `KeyWaitCompleted`: the deferred PC advance of FX0A (R104). -/
  | keyWaitCompleted
  deriving DecidableEq, Repr

/-- What an operation of the machine answers: a value, one of the errors of R230, or a refusal of R238. Neither of the last
two carries a state: the state stays as it was (R108, R231, R238). -/
abbrev Res (α : Type) := Host.Outcome α Fault Refusal

end Sys2Proof.Machine
end

