-- ==== Sys2Proof/Machine/Ops.lean ====
section
/-! DEFINITION. The named operations shared by the instructions: memory (spec/20_memory.md R51 to R53), sequences of accesses
(spec/43_index_memory.md R170), the fetch (spec/40_step_cycle.md R102), the PC's moves (R10, R106) and the return stack
(R28, R29).

TAKING AN EXCEPTION is not an operation of this machine: it has no trap entry and no trap return (spec/60_exceptions.md R240,
R241). An error saves nothing and transfers control nowhere; it ends the step, and the state stays as it was (R231). So an
operation that meets one answers `.fault`, which carries no state, and `thenDo` hands it on. -/

namespace Sys2Proof.Machine

/-- Do `f` with the value `x` answers; an error or a refusal ends the whole operation with no write made (R108). -/
def thenDo {α β : Type} (x : Res α) (f : α → Res β) : Res β :=
  match x with
  | .next a => f a
  | .fault r => .fault r
  | .refused r => .refused r

/-! ### Memory -/

/-- The canonical form of a memory: strictly rising addresses, all of them addresses that exist (R50), and no entry equal to
what an unlisted address reads as. -/
abbrev Memory.wf (m : Memory) : Prop :=
  m.Pairwise (fun c d => c.1 < d.1) ∧ ∀ c ∈ m, c.1 < config.memSize ∧ c.2 ≠ resetByte c.1

/-- `mem[a]`: the listed byte, or what construction left there (R42). -/
def Memory.read (m : Memory) (a : Nat) : Byte :=
  match m with
  | [] => resetByte a
  | (b, w) :: rest => if a = b then w else Memory.read rest a

/-- An entry for the byte `w` at address `a`, or none where an unlisted address reads as `w` anyway. -/
def Memory.consCell (a : Nat) (w : Byte) (rest : Memory) : Memory :=
  if w = resetByte a then rest else (a, w) :: rest

/-- `mem[a] <- w`, keeping the canonical form. -/
def Memory.write (m : Memory) (a : Nat) (w : Byte) : Memory :=
  match m with
  | [] => Memory.consCell a w []
  | (b, u) :: rest =>
    if a < b then Memory.consCell a w ((b, u) :: rest)
    else if a = b then Memory.consCell a w rest
    else (b, u) :: Memory.write rest a w

/-- `MemRead(a, 1)` (R51). -/
def memRead (m : Memory) (a : Nat) : Res Byte :=
  if a < config.memSize then .next (Memory.read m a) else .fault (.memoryOutOfBounds a)

/-- `MemWrite(a, 1, w)` (R52): out of bounds is an error, the font region is refused (R57). -/
def memWrite (m : Memory) (a : Nat) (w : Byte) : Res Memory :=
  if ¬ a < config.memSize then .fault (.memoryOutOfBounds a)
  else if inFont a then .refused (.fontRegionWrite a)
  else .next (Memory.write m a w)

/-- The `n` bytes at `a`, `a+1`, ..., read in ascending order; the first failing access ends it (R170). -/
def readBytes (m : Memory) (a : Nat) : Nat → Res (List Byte)
  | 0 => .next []
  | n + 1 => thenDo (memRead m a) fun b => thenDo (readBytes m (a + 1) n) fun bs => .next (b :: bs)

/-- Write the bytes to `a`, `a+1`, ... in ascending order; the first failing access ends it, and with it every write already
made (R170, R108). -/
def writeBytes (m : Memory) (a : Nat) : List Byte → Res Memory
  | [] => .next m
  | b :: bs => thenDo (memWrite m a b) fun m' => writeBytes m' (a + 1) bs

/-- `Fetch(PC)` (R102): the byte at PC, then the byte at PC + 1, high byte first. The addresses are natural numbers: neither
wraps (R53). -/
def fetch (s : State) : Res Word :=
  thenDo (memRead s.mem s.pc.toNat) fun hi =>
    thenDo (memRead s.mem (s.pc.toNat + 1)) fun lo => .next (wordOfBytes hi lo)

/-! ### The program counter -/

/-- `PC <- v`. -/
def State.setPc (s : State) (v : Word) : State := { s with pc := v }

/-- `next`: `PC <- PC + 2` (R10, R106). -/
def State.advance (s : State) : State := { s with pc := s.pc + 2 }

/-- `skip`: `PC <- PC + 4` (R10). -/
def State.skipNext (s : State) : State := { s with pc := s.pc + 4 }

/-- The conditional skip: `skip` where the condition holds, `next` otherwise (R124). -/
def State.skipIf (s : State) (c : Bool) : State := if c then s.skipNext else s.advance

/-! ### The return stack -/

/-- `stack[j]` (R29). The machine reads only slots below STACK_DEPTH while SP keeps its bound (R28); above it there is no
slot, and the value given here is met by no reachable state (notes/assumptions/7.md). -/
def State.stackSlot (s : State) (j : Nat) : Word :=
  if h : j < config.stackDepth then s.stack[j] else 0

/-- `stack[SP] <- v`, then `SP <- SP + 1` (R29). -/
def State.pushSlot (s : State) (v : Word) : State := { s with stack := s.stack.setIfInBounds s.sp v, sp := s.sp + 1 }

/-- `SP <- k` (R28); the slots keep their values (R29). -/
def State.setSp (s : State) (k : Nat) : State := { s with sp := k }

/-- CALL's push (R123); a full stack is the error StackOverflow (R234). -/
def pushReturn (s : State) (v : Word) : Res State :=
  if s.sp < config.stackDepth then .next (s.pushSlot v) else .fault .stackOverflow

/-- RET's pop (R121): `SP <- SP - 1`, then `stack[SP]` is the answer. An empty stack is the error StackUnderflow (R235). -/
def popReturn (s : State) : Res (Word × State) :=
  match s.sp with
  | 0 => .fault .stackUnderflow
  | k + 1 => .next (s.stackSlot k, s.setSp k)

end Sys2Proof.Machine
end

