-- ==== Sys2Proof/Machine/Operands.lean ====
section
/-! DEFINITION. The operand forms: the register file's accessors (spec/10_state.md R20, R43), the address register, literals
(spec/30_encoding.md R73), the shift operand (R149), the font address (R173), the key index (R215), and the register block of
FX55 and FX65. -/

namespace Sys2Proof.Machine

/-- `V[x]`, read (R20). No register is hard-wired (R20). -/
def State.reg (s : State) (x : RegIdx) : Byte := s.v[x.val]

/-- `V[x] <- w` (R20). -/
def State.setReg (s : State) (x : RegIdx) (w : Byte) : State := { s with v := s.v.set x.val w }

/-- `zext_16(nnn)`: an address literal as PC or I holds it (R73). -/
def literalAddr (nnn : Addr12) : Word := nnn.setWidth 16

/-- `zext_16(v)` of a register's byte (R128, R172). -/
def byteAsWord (w : Byte) : Word := w.setWidth 16

/-- `I <- w` (R23). -/
def State.setI (s : State) (w : Word) : State := { s with i := w }

/-- Replace the memory (R39). -/
def State.setMem (s : State) (m : Memory) : State := { s with mem := m }

/-- `DT <- w` (R32, R213). -/
def State.setDt (s : State) (w : Byte) : State := { s with dt := w }

/-- `ST <- w` (R32, R214). -/
def State.setSt (s : State) (w : Byte) : State := { s with st := w }

/-- The operand of a shift (R149): Vx, or Vy for the other value of `SHIFT_SOURCE`. -/
def shiftOperand (src : ShiftSource) (x y : RegIdx) (s : State) : Byte :=
  match src with
  | .vx => s.reg x
  | .vy => s.reg y

/-- `FONT_BASE + 5·d`: where the glyph of hexadecimal digit d stands (R55, R173). -/
def glyphAddr (d : Nat) : Word := BitVec.ofNat 16 (config.fontBase + 5 * d)

/-- The key a register's value names (R215): a value above 15 names none and is refused. -/
def keyIndex (w : Byte) : Res KeyIdx :=
  if h : w.toNat < numKeysValue then .next ⟨w.toNat, h⟩ else .refused (.keyIndexOutOfRange w)

/-- `key[k]` (R35). -/
def State.keyDownNow (s : State) (k : KeyIdx) : Bool := s.key[k.val]

/-- `V[0] .. V[x]`, in that order: the register block of FX55 (R176). -/
def State.regsUpTo (s : State) (x : RegIdx) : List Byte := s.v.toList.take (x.val + 1)

/-- `V[i] <- b` for the bytes in order from register `i` up: the register block of FX65 (R177). -/
def putRegs (v : RegFile) (i : Nat) : List Byte → RegFile
  | [] => v
  | b :: bs => putRegs (v.setIfInBounds i b) (i + 1) bs

/-- Replace the register file (R177). -/
def State.setRegs (s : State) (v : RegFile) : State := { s with v := v }

end Sys2Proof.Machine
end

