-- ==== Sys2Proof/Machine/Flags.lean ====
section
/-! DEFINITION. The flag computations: every value an instruction writes to VF as a flag (spec/10_state.md R22), and the order
in which result and flag are written (spec/42_alu.md R146 to R148). VF is the machine's only flag (R30). -/

namespace Sys2Proof.Machine

/-- A flag as VF holds it: 1 or 0. -/
def flagByte (c : Bool) : Byte := if c then 1 else 0

/-- The exact sum of two registers, 0 to 510 (R146, R150). -/
def sumExact (a b : Byte) : Nat := a.toNat + b.toNat

/-- `s mod 256` (R146). -/
def sumByte (a b : Byte) : Byte := BitVec.ofNat 8 (sumExact a b)

/-- Carry: the exact sum exceeds 255 (R150). -/
def carry (a b : Byte) : Bool := decide (sumExact a b > 255)

/-- `(a - b) mod 256`, from the exact difference (R146, R151). -/
def diffByte (a b : Byte) : Byte := BitVec.ofInt 8 ((a.toNat : Int) - (b.toNat : Int))

/-- No borrow: the minuend is at least the subtrahend (R148). -/
def noBorrow (a b : Byte) : Bool := decide (a.toNat ≥ b.toNat)

/-- The bit a right shift moves out: `a[0]` (R152). -/
def shiftedOutRight (a : Byte) : Bool := a.getLsbD 0

/-- The bit a left shift moves out: `a[7]` (R154). -/
def shiftedOutLeft (a : Byte) : Bool := a.getLsbD 7

/-- `VF <- flag` (R22). -/
def State.setFlag (s : State) (c : Bool) : State := s.setReg VF (flagByte c)

/-- The result to Vx, then the flag to VF: with x = 0xF the flag stays (R147). -/
def State.setRegFlag (s : State) (x : RegIdx) (w : Byte) (c : Bool) : State := (s.setReg x w).setFlag c

end Sys2Proof.Machine
end

