-- ==== Sys2Proof/Machine/Alu.lean ====
section
/-! DEFINITION. Register arithmetic and logic (spec/42_alu.md). None of these instructions can raise an error; each ends with
`PC <- PC + 2`. Operands are read from the state before any write (R147). -/

namespace Sys2Proof.Machine

/-- LD Vx, kk (R140). -/
def execLdImm (x : RegIdx) (kk : Byte) (s : State) : Res State := .next (s.setReg x kk).advance

/-- ADD Vx, kk (R141): modulo 256, VF untouched. -/
def execAddImm (x : RegIdx) (kk : Byte) (s : State) : Res State :=
  .next (s.setReg x (sumByte (s.reg x) kk)).advance

/-- LD Vx, Vy (R142). -/
def execLdReg (x y : RegIdx) (s : State) : Res State := .next (s.setReg x (s.reg y)).advance

/-- OR Vx, Vy (R143): VF untouched. -/
def execOr (x y : RegIdx) (s : State) : Res State := .next (s.setReg x (s.reg x ||| s.reg y)).advance

/-- AND Vx, Vy (R144): VF untouched. -/
def execAnd (x y : RegIdx) (s : State) : Res State := .next (s.setReg x (s.reg x &&& s.reg y)).advance

/-- XOR Vx, Vy (R145): VF untouched. -/
def execXor (x y : RegIdx) (s : State) : Res State := .next (s.setReg x (s.reg x ^^^ s.reg y)).advance

/-- ADD Vx, Vy (R150): the sum modulo 256, then the carry. -/
def execAddReg (x y : RegIdx) (s : State) : Res State :=
  .next (s.setRegFlag x (sumByte (s.reg x) (s.reg y)) (carry (s.reg x) (s.reg y))).advance

/-- SUB Vx, Vy (R151): Vx - Vy modulo 256, then the no-borrow flag. -/
def execSub (x y : RegIdx) (s : State) : Res State :=
  .next (s.setRegFlag x (diffByte (s.reg x) (s.reg y)) (noBorrow (s.reg x) (s.reg y))).advance

/-- SHR Vx (R152): the operand shifted right by one, then the bit shifted out. -/
def execShr (x y : RegIdx) (s : State) : Res State :=
  let a := shiftOperand config.shiftSource x y s
  .next (s.setRegFlag x (a >>> 1) (shiftedOutRight a)).advance

/-- SUBN Vx, Vy (R153): Vy - Vx modulo 256, then the no-borrow flag. -/
def execSubn (x y : RegIdx) (s : State) : Res State :=
  .next (s.setRegFlag x (diffByte (s.reg y) (s.reg x)) (noBorrow (s.reg y) (s.reg x))).advance

/-- SHL Vx (R154): the operand shifted left by one, modulo 256, then the bit shifted out. -/
def execShl (x y : RegIdx) (s : State) : Res State :=
  let a := shiftOperand config.shiftSource x y s
  .next (s.setRegFlag x (a <<< 1) (shiftedOutLeft a)).advance

/-- `Rand()` (R159): the next free byte, and the state in which it has been drawn (notes/assumptions/2.md). -/
def drawRandom (s : State) : Byte × State := (Config.randByte s.draws, { s with draws := s.draws + 1 })

/-- RND Vx, kk (R159): a free byte and the mask. -/
def execRnd (x : RegIdx) (kk : Byte) (s : State) : Res State :=
  .next ((drawRandom s).2.setReg x ((drawRandom s).1 &&& kk)).advance

end Sys2Proof.Machine
end

