-- ==== Sys2Proof/Machine/Control.lean ====
section
/-! DEFINITION. The control-flow instructions (spec/41_control_flow.md). Each writes PC itself and gets no further advance
(R25). None writes a register. -/

namespace Sys2Proof.Machine

/-- SYS (R120): `PC <- PC + 2`; the literal is unused (notes/assumptions/8.md). -/
def execSys (_nnn : Addr12) (s : State) : Res State := .next s.advance

/-- RET (R121): pop the return address into PC; it is not checked and gets no advance. -/
def execRet (s : State) : Res State :=
  thenDo (popReturn s) fun r => .next (r.2.setPc r.1)

/-- JP (R122): `PC <- zext_16(nnn)`. -/
def execJp (nnn : Addr12) (s : State) : Res State := .next (s.setPc (literalAddr nnn))

/-- CALL (R123): push PC + 2, then `PC <- zext_16(nnn)`. -/
def execCall (nnn : Addr12) (s : State) : Res State :=
  thenDo (pushReturn s (s.pc + 2)) fun s' => .next (s'.setPc (literalAddr nnn))

/-- SE Vx, kk (R124). -/
def execSeImm (x : RegIdx) (kk : Byte) (s : State) : Res State := .next (s.skipIf (s.reg x == kk))

/-- SNE Vx, kk (R125). -/
def execSneImm (x : RegIdx) (kk : Byte) (s : State) : Res State := .next (s.skipIf (s.reg x != kk))

/-- SE Vx, Vy (R126). -/
def execSeReg (x y : RegIdx) (s : State) : Res State := .next (s.skipIf (s.reg x == s.reg y))

/-- SNE Vx, Vy (R127). -/
def execSneReg (x y : RegIdx) (s : State) : Res State := .next (s.skipIf (s.reg x != s.reg y))

/-- JP V0, nnn (R128): the literal plus V0, not reduced to 12 bits. -/
def execJpV0 (nnn : Addr12) (s : State) : Res State :=
  .next (s.setPc (literalAddr nnn + byteAsWord (s.reg 0)))

end Sys2Proof.Machine
end

