-- ==== Sys2Proof/Machine/Display.lean ====
section
/-! DEFINITION. The display compositor (spec/44_display.md): CLS, and DRW as the pixel loop of R192. -/

namespace Sys2Proof.Machine

/-- `px[row][col]` (R33). -/
def Screen.pixel (p : Screen) (row : Row) (col : Col) : Bool := p[row.val][col.val]

/-- `px[row][col] <- c` (R33). -/
def Screen.setPixel (p : Screen) (row : Row) (col : Col) (c : Bool) : Screen :=
  p.set row.val (p[row.val].set col.val c)

/-- `v mod 32`: a row coordinate wraps and never fails (R192). -/
def wrapRow (v : Nat) : Row := ⟨v % dispHValue, Nat.mod_lt _ (by decide)⟩

/-- `v mod 64`: a column coordinate wraps and never fails (R192). -/
def wrapCol (v : Nat) : Col := ⟨v % dispWValue, Nat.mod_lt _ (by decide)⟩

/-- Bit `7 - b` of a sprite row's byte: the pixel at column offset b, the leftmost pixel the most significant bit (R191). -/
def spriteBit (byte : Byte) (b : Nat) : Bool := byte.getLsbD (7 - b)

/-- The display and the collision found so far, while a sprite is drawn. -/
structure Canvas where
  /-- The display. -/
  px : Screen
  /-- Some pixel has gone from 1 to 0. -/
  collision : Bool
  deriving DecidableEq, Repr

/-- One pixel of the loop of R192: a sprite bit of 1 inverts its pixel and notes a 1 to 0 transition; a bit of 0 leaves it. -/
def drawPixel (row : Row) (col : Col) (bit : Bool) (c : Canvas) : Canvas :=
  if bit then ⟨c.px.setPixel row col (!c.px.pixel row col), c.collision || c.px.pixel row col⟩ else c

/-- One row of the loop of R192: the eight columns `(cx + b) mod 64` of one row. -/
def drawRow (row : Row) (cx : Nat) (byte : Byte) (c : Canvas) : Canvas :=
  [0, 1, 2, 3, 4, 5, 6, 7].foldl (fun c b => drawPixel row (wrapCol (cx + b)) (spriteBit byte b) c) c

/-- The loop of R192 from row offset `r` on: the rows `(cy + r) mod 32`. -/
def drawRows (cx cy : Nat) (r : Nat) (rows : List Byte) (c : Canvas) : Canvas :=
  match rows with
  | [] => c
  | byte :: rest => drawRows cx cy (r + 1) rest (drawRow (wrapRow (cy + r)) cx byte c)

/-- Replace the display and mark it dirty (R190, R194). -/
def State.setScreen (s : State) (p : Screen) : State := { s with px := p, dirty := true }

/-- CLS (R190): every pixel 0, dirty set, VF unchanged. -/
def execCls (s : State) : Res State := .next (s.setScreen Screen.blank).advance

/-- DRW Vx, Vy, n (R192): the coordinates and all rows are read before any write; then the sprite is XORed onto the display,
VF is the collision over the whole sprite, dirty is set. -/
def execDrw (x y : RegIdx) (n : Count) (s : State) : Res State :=
  thenDo (readBytes s.mem s.i.toNat n.val) fun rows =>
    let c := drawRows (s.reg x).toNat (s.reg y).toNat 0 rows ⟨s.px, false⟩
    .next ((s.setScreen c.px).setFlag c.collision).advance

end Sys2Proof.Machine
end

