-- ==== Sys2Proof/Machine/IndexMemory.lean ====
section
/-! DEFINITION. The address register and the memory transfers (spec/43_index_memory.md). The transfers leave I unchanged
(R174). The one addressing mode is the address register plus an index (R170): item k of a transfer is at `I + k`, computed as
a natural number and never reduced, so an access sequence starts at `s.i.toNat`. A failing access leaves the whole state
unchanged (R108, R170). -/

namespace Sys2Proof.Machine

/-- LD I, nnn (R171). -/
def execLdI (nnn : Addr12) (s : State) : Res State := .next (s.setI (literalAddr nnn)).advance

/-- ADD I, Vx (R172): modulo 65536, VF untouched. -/
def execAddI (x : RegIdx) (s : State) : Res State := .next (s.setI (s.i + byteAsWord (s.reg x))).advance

/-- LD F, Vx (R173): the glyph's address; a value above 15 is refused. -/
def execLdF (x : RegIdx) (s : State) : Res State :=
  if (s.reg x).toNat > 0xF then .refused (.fontDigitOutOfRange (s.reg x))
  else .next (s.setI (glyphAddr (s.reg x).toNat)).advance

/-- The three decimal digits of a byte, hundreds first, each as a byte (R175). -/
def bcdDigits (w : Byte) : List Byte :=
  [BitVec.ofNat 8 (w.toNat / 100), BitVec.ofNat 8 (w.toNat / 10 % 10), BitVec.ofNat 8 (w.toNat % 10)]

/-- LD B, Vx (R175): the digits to I, I+1, I+2. -/
def execLdB (x : RegIdx) (s : State) : Res State :=
  thenDo (writeBytes s.mem s.i.toNat (bcdDigits (s.reg x))) fun m => .next (s.setMem m).advance

/-- LD [I], Vx (R176): V0 to Vx, inclusive, to I, I+1, .... -/
def execStoreRegs (x : RegIdx) (s : State) : Res State :=
  thenDo (writeBytes s.mem s.i.toNat (s.regsUpTo x)) fun m => .next (s.setMem m).advance

/-- LD Vx, [I] (R177): I, I+1, ... to V0 to Vx, inclusive. -/
def execLoadRegs (x : RegIdx) (s : State) : Res State :=
  thenDo (readBytes s.mem s.i.toNat (x.val + 1)) fun bs => .next (s.setRegs (putRegs s.v 0 bs)).advance

end Sys2Proof.Machine
end

