-- ==== Sys2Proof/Machine/TimerKeypad.lean ====
section
/-! DEFINITION. The timer and keypad instructions (spec/45_timer_keypad.md). -/

namespace Sys2Proof.Machine

/-- SKP Vx (R210): skip if the key named by Vx is down. -/
def execSkp (x : RegIdx) (s : State) : Res State :=
  thenDo (keyIndex (s.reg x)) fun k => .next (s.skipIf (s.keyDownNow k))

/-- SKNP Vx (R211): skip if the key named by Vx is up. -/
def execSknp (x : RegIdx) (s : State) : Res State :=
  thenDo (keyIndex (s.reg x)) fun k => .next (s.skipIf (!s.keyDownNow k))

/-- LD Vx, DT (R212). -/
def execLdVxDt (x : RegIdx) (s : State) : Res State := .next (s.setReg x s.dt).advance

/-- Enter the wait for a key (R216, R36): the waiting flag and the target register. -/
def State.enterWait (s : State) (x : RegIdx) : State := { s with waiting := true, target := x }

/-- LD Vx, K (R216): enter the wait; PC still holds this instruction's address. The advance is the step cycle's (R104). -/
def execLdVxK (x : RegIdx) (s : State) : Res State := .next (s.enterWait x)

/-- LD DT, Vx (R213). -/
def execLdDtVx (x : RegIdx) (s : State) : Res State := .next (s.setDt (s.reg x)).advance

/-- LD ST, Vx (R214). -/
def execLdStVx (x : RegIdx) (s : State) : Res State := .next (s.setSt (s.reg x)).advance

end Sys2Proof.Machine
end

