-- ==== Sys2Proof/Machine/Cycle.lean ====
section
/-! DEFINITION. The step cycle (spec/40_step_cycle.md R100) with the outcome it reports (R107), and the placing of one
instruction word where the next fetch reads it. -/

namespace Sys2Proof.Machine

/-- R104: the deferred PC advance of FX0A; `resume` is cleared, nothing is fetched. -/
def State.completeWait (s : State) : State := { s with pc := s.pc + 2, resume := false }

/-- Execute a decoded operation and report it (R105, R107). -/
def execReporting (i : Instr) (s : State) : Res (State × StepOutcome) :=
  thenDo (exec i s) fun s' => .next (s', .executed i)

/-- Decode a fetched word and execute it; a word that is no instruction is the error UnrecognizedOpcode (R103, R232). -/
def runWord (w : Word) (s : State) : Res (State × StepOutcome) :=
  match decodeWord w with
  | .ok i => execReporting i s
  | .error _ => .fault (.unrecognizedOpcode w)

/-- `step()` with its outcome (R100): the wait check, the resume step, then fetch, decode and execute (R236). An error or a
refusal carries no state: the machine keeps the one it had (R108). -/
def stepReport (s : State) : Res (State × StepOutcome) :=
  if s.waiting then .next (s, .waiting)
  else if s.resume then .next (s.completeWait, .keyWaitCompleted)
  else thenDo (fetch s) fun w => runWord w s

/-- Drop the report of a step: the state alone. -/
def dropReport (r : Res (State × StepOutcome)) : Res State := thenDo r fun p => .next p.1

/-- Leave the wait, so that the next step fetches: `waiting` and `target` as R36 clears them, `resume` clear. -/
def State.leaveWait (s : State) : State :=
  { s with waiting := false, target := if s.waiting then 0 else s.target, resume := false }

/-- Keep a PC from which a word can be fetched (R102), else go to the program start. -/
def fetchablePc (pc : Word) : Word := if pc.toNat + 1 < config.memSize then pc else BitVec.ofNat 16 config.progStart

/-- Store a word's two bytes at an address, high byte first (R58). It is not a MemWrite of the machine: it stands for the
loading of a program from outside (notes/assumptions/9.md). -/
def Memory.placeWord (m : Memory) (a : Nat) (w : Word) : Memory :=
  Memory.write (Memory.write m a (w.extractLsb' 8 8)) (a + 1) (w.extractLsb' 0 8)

/-- The state with the word stored where the next step fetches (notes/assumptions/9.md). -/
def State.placeFetch (s : State) (w : Word) : State :=
  { s.leaveWait with
    pc := fetchablePc s.pc,
    mem := Memory.placeWord s.mem (fetchablePc s.pc).toNat w }

end Sys2Proof.Machine
end

