-- ==== Sys2Proof/Machine/Step.lean ====
section
/-! DEFINITION. One step of the machine (spec/40_step_cycle.md R100): the step cycle of Cycle.lean without its report, and the
host's placing of an instruction word. -/

namespace Sys2Proof.Machine

/-- One call of `step()` (R100, R251). -/
def step (s : State) : Host.Outcome State Fault Refusal := dropReport (stepReport s)

/-- `s` with the instruction whose bits the opcode table numbers as `w` stored where `step` fetches its next instruction. -/
def State.withFetchWord (s : State) (nbits w : Nat) : State := s.placeFetch (BitVec.ofNat 16 (w % 2 ^ nbits))

end Sys2Proof.Machine
end

