-- ==== Sys2Proof/Machine/HostCalls.lean ====
section
/-! DEFINITION. What the outside world can do to the machine (spec/60_exceptions.md R244 to R258): the program loader, the
timer clock, key events, the framebuffer and sound accessors, the dirty flag's clearing, and schedules of host calls. Each
call is atomic and falls between two steps, in any order and number (R258). -/

namespace Sys2Proof.Machine

/-- One counter's tick: down by one, clamped at zero (R245). -/
def tickCounter (c : Byte) : Byte := if c.toNat > 0 then c - 1 else c

/-- `tick_timers()` (R245): both counters, whatever the keypad's state (R246). -/
def tickTimers (s : State) : State := { s with dt := tickCounter s.dt, st := tickCounter s.st }

/-- `key[k] <- c` (R35). -/
def State.setKey (s : State) (k : KeyIdx) (c : Bool) : State := { s with key := s.key.set k.val c }

/-- A key-down event resolves a wait (R247): the key's value goes to the target register, the wait is cleared, and the PC
advance is left to the next step (R40). -/
def State.resolveWait (s : State) (k : KeyIdx) : State :=
  { s.setReg s.target (BitVec.ofNat 8 k.val) with waiting := false, target := 0, resume := true }

/-- `key_down(k)` (R247): the key's state is recorded in any case; a wait, if one is active, is resolved. -/
def keyDown (k : KeyIdx) (s : State) : State :=
  if s.waiting then (s.setKey k true).resolveWait k else s.setKey k true

/-- `key_up(k)` (R248). -/
def keyUp (k : KeyIdx) (s : State) : State := s.setKey k false

/-- The framebuffer accessor (R254): the grid and the dirty flag, read only. -/
def readFramebuffer (s : State) : Screen × Bool := (s.px, s.dirty)

/-- `clear_dirty()` (R255). -/
def clearDirty (s : State) : State := { s with dirty := false }

/-- The sound-timer accessor (R256), read only. -/
def readSoundTimer (s : State) : Byte := s.st

/-- The audio collaborator's reading of it (R256): nonzero is "play tone". -/
def tonePlaying (s : State) : Bool := readSoundTimer s != 0

/-- The program loader (R250): the image's bytes through the memory accessor from the program start on; a byte beyond 0xFFF
is the error MemoryOutOfBounds. The host calls it before the first step (R258, R272). -/
def load (image : List Byte) (s : State) : Res State :=
  thenDo (writeBytes s.mem config.progStart image) fun m => .next (s.setMem m)

/-- The host's interactions with a running machine (R258). -/
inductive HostCall where
  /-- `step()`. -/
  | step
  /-- `tick_timers()`. -/
  | tickTimers
  /-- `key_down(k)`. -/
  | keyDown (k : KeyIdx)
  /-- `key_up(k)`. -/
  | keyUp (k : KeyIdx)
  /-- Read the framebuffer and the dirty flag. -/
  | readFramebuffer
  /-- `clear_dirty()`. -/
  | clearDirty
  /-- Read the sound timer. -/
  | readSoundTimer
  deriving DecidableEq, Repr

/-- The state after one host call. Only `step()` can end in an error or a refusal. -/
def hostCall (c : HostCall) (s : State) : Res State :=
  match c with
  | .step => Sys2Proof.Machine.step s
  | .tickTimers => .next (tickTimers s)
  | .keyDown k => .next (keyDown k s)
  | .keyUp k => .next (keyUp k s)
  | .readFramebuffer => .next s
  | .clearDirty => .next (clearDirty s)
  | .readSoundTimer => .next s

/-- A schedule of host calls, which the driver alone decides (R258), up to the first error or refusal. A driver that goes on
after an error goes on from the state before it (R110, R231): that run is the schedule without the failed step. -/
def runSchedule : List HostCall → State → Res State
  | [], s => .next s
  | c :: cs, s => thenDo (hostCall c s) fun s' => runSchedule cs s'

/-- Boot (R272): construction, the loader, then the driver's schedule. -/
def boot (image : List Byte) (schedule : List HostCall) : Res State :=
  thenDo (load image State.reset) fun s => runSchedule schedule s

end Sys2Proof.Machine
end

