-- ==== Sys2Proof/Safety.lean ====
section
/-! DEFINITION. What counts as a safe run, and the vocabulary of the claims: the machine's invariant, the parts of a state, and
"everything but these parts is the same". -/

namespace Sys2Proof.Machine

/-- The invariant of the machine: what holds at construction and what every step and every host call keeps. -/
structure State.Inv (s : State) : Prop where
  /-- Memory is in its canonical form: equal memories are equal data. -/
  mem_wf : Memory.wf s.mem
  /-- The font region holds the font table (R57: "no write may target the font region"). -/
  font_intact : ∀ k, k < Config.fontSize → Memory.read s.mem (config.fontBase + k) = config.fontTable.getD k 0
  /-- SP stays within [0, depth] (R28). -/
  sp_le : s.sp ≤ config.stackDepth
  /-- No PC the machine reaches is above the farthest JP V0 (R27). -/
  pc_le : s.pc.toNat ≤ 0x10FE
  /-- Every active return address is one a CALL pushed: at most 0x1000 (R27, R121). -/
  stack_le : ∀ j, j < s.sp → (s.stackSlot j).toNat ≤ 0x1000
  /-- In a wait, and until it has completed, PC is the address of a fetched FX0A (R216). -/
  wait_pc : s.waiting = true ∨ s.resume = true → s.pc.toNat ≤ 0xFFE
  /-- While `resume` is set the keypad is Idle (R40). -/
  resume_idle : s.resume = true → s.waiting = false
  /-- An idle keypad's target is cleared (R36). -/
  target_idle : s.waiting = false → s.target = 0

/-- A run that ends in neither an error nor a refusal. -/
def SafeRun (schedule : List HostCall) (s : State) : Prop := ∃ t, runSchedule schedule s = .next t

/-- The parts of a state that a claim about a frame names. Memory and the registers are compared through the model's reads of
one byte and of one register. -/
inductive Part where
  /-- Memory, by every byte's value. -/
  | mem
  /-- The general registers. -/
  | v
  /-- The address register. -/
  | i
  /-- The program counter. -/
  | pc
  /-- The stack pointer. -/
  | sp
  /-- The return-stack slots. -/
  | stack
  /-- The delay timer. -/
  | dt
  /-- The sound timer. -/
  | st
  /-- The pixels. -/
  | px
  /-- The redraw flag. -/
  | dirty
  /-- The key states. -/
  | key
  /-- The wait flag. -/
  | waiting
  /-- The wait's target register. -/
  | target
  /-- The wait-completion bit. -/
  | resume
  /-- The model's own count of random draws. -/
  | draws
  deriving DecidableEq, Repr

/-- The two states agree on the part. -/
def Part.same (p : Part) (s t : State) : Prop :=
  match p with
  | .mem => ∀ a, Memory.read t.mem a = Memory.read s.mem a
  | .v => ∀ r, t.reg r = s.reg r
  | .i => t.i = s.i
  | .pc => t.pc = s.pc
  | .sp => t.sp = s.sp
  | .stack => t.stack = s.stack
  | .dt => t.dt = s.dt
  | .st => t.st = s.st
  | .px => t.px = s.px
  | .dirty => t.dirty = s.dirty
  | .key => t.key = s.key
  | .waiting => t.waiting = s.waiting
  | .target => t.target = s.target
  | .resume => t.resume = s.resume
  | .draws => t.draws = s.draws

/-- `t` agrees with `s` on every part of the state but those listed. -/
def SameBut (changed : List Part) (s t : State) : Prop := ∀ p : Part, p ∉ changed → p.same s t

/-- Every register but those listed is the same. -/
def RegsSameBut (changed : List RegIdx) (s t : State) : Prop := ∀ r : RegIdx, r ∉ changed → t.reg r = s.reg r

/-- Every byte of memory outside the `n` bytes at `a` reads as before. -/
def MemSameOutside (a n : Nat) (s t : State) : Prop :=
  ∀ b, ¬ (a ≤ b ∧ b < a + n) → Memory.read t.mem b = Memory.read s.mem b

/-- The byte at `b` once the `n` bytes `f 0`, `f 1`, ... have been stored from `a` on: the stored byte inside the transfer, the old
byte outside it (R60, R62). -/
def byteAfterStore (m : Memory) (a n : Nat) (f : Nat → Byte) (b : Nat) : Byte :=
  if a ≤ b ∧ b < a + n then f (b - a) else Memory.read m b

/-- None of the `n` bytes at `a` lies in the font region (R57). -/
def ClearOfFont (a n : Nat) : Prop := ∀ k, k < n → ¬ inFont (a + k)

/-- The next step executes the instruction: it neither waits nor resumes, and the word at PC decodes to it (R100). -/
def Executes (s : State) (i : Instr) : Prop :=
  s.waiting = false ∧ s.resume = false ∧ ∃ w, fetch s = .next w ∧ decodeWord w = .ok i

/-- The control-flow instructions, which write PC themselves (R25). -/
def isControlFlow : Instr → Bool
  | .sys _ | .ret | .jp _ | .call _ | .jpV0 _ => true
  | .seImm _ _ | .sneImm _ _ | .seReg _ _ | .sneReg _ _ | .skp _ | .sknp _ => true
  | _ => false

/-- The instructions that write VF as a flag (R22). -/
def writesFlag : Instr → Bool
  | .addReg _ _ | .sub _ _ | .shr _ _ | .subn _ _ | .shl _ _ | .drw _ _ _ => true
  | _ => false

/-- The instruction names VF as a register it writes as data (R21, R22). -/
def writesVFAsData : Instr → Bool
  | .ldImm x _ | .addImm x _ | .ldReg x _ | .or x _ | .and x _ | .xor x _ => x == VF
  | .rnd x _ | .ldVxDt x | .loadRegs x => x == VF
  | _ => false

/-- Row `row`, column `col` is a pixel that a set bit of the sprite of DXYN targets (R191, R192): row offset r, column offset b,
bit 7 - b of the byte at I + r. -/
def SpriteTargets (s : State) (x y : RegIdx) (n : Count) (row : Row) (col : Col) : Prop :=
  ∃ r b : Nat, r < n.val ∧ b < 8 ∧ row.val = ((s.reg y).toNat + r) % 32 ∧ col.val = ((s.reg x).toNat + b) % 64 ∧
    (Memory.read s.mem (s.i.toNat + r)).getLsbD (7 - b) = true

/-- Every address of the `n` bytes at `a` exists (R51). -/
def InMemory (a n : Nat) : Prop := ∀ k, k < n → a + k ≤ 0xFFF

end Sys2Proof.Machine
end

