-- ==== Sys2Proof/Certificates/Slice0/Obligations.lean ====
section
/-! DEFINITION. The statements for the provers. Each docstring names the rules of spec/ it formalises; where a clause rests on a
decision the spec marks as its own (D<n> of spec/92_eei_decisions.md) or on a choice of the model, it says so. -/

open Sys2Proof Sys2Proof.Machine

/-! ### Encoding -/

/-- R71 to R85: decoding an instruction's word, or its two bytes before any others, gives the instruction back. The patterns are
the spec's decision D1. -/
def Obligations.DecodeOfEncodeIsTheInstruction : Prop :=
  ∀ i : Instr, i.wellFormed = true →
    decodeWord (encode i) = .ok i ∧ ∀ rest, decodeBytes (encodeBytes i ++ rest) = .ok (i, rest)

/-- R75, R84: no bit of a recognized word is dropped: the instruction it decodes to is well-formed and encodes to that word. The
patterns are the spec's decision D1. -/
def Obligations.EncodeOfDecodeIsTheWord : Prop :=
  ∀ (w : Word) (i : Instr), decodeWord w = .ok i → i.wellFormed = true ∧ encode i = w

/-- R78, R79, R80: the families 0x8, 0xE and 0xF are recognized for exactly the sub-opcodes the rules list, and every other word
of theirs is Unrecognized. -/
def Obligations.SubDispatchedFamiliesRecognizeTheirLists : Prop :=
  ∀ w : Word,
    (fieldOp w = 0x8 →
      if (fieldN w).val ∈ [0x0, 0x1, 0x2, 0x3, 0x4, 0x5, 0x6, 0x7, 0xE] then ∃ i, decodeWord w = .ok i
      else decodeWord w = .error (.unrecognized w)) ∧
    (fieldOp w = 0xE →
      if (fieldKK w).toNat ∈ [0x9E, 0xA1] then ∃ i, decodeWord w = .ok i
      else decodeWord w = .error (.unrecognized w)) ∧
    (fieldOp w = 0xF →
      if (fieldKK w).toNat ∈ [0x07, 0x0A, 0x15, 0x18, 0x1E, 0x29, 0x33, 0x55, 0x65] then ∃ i, decodeWord w = .ok i
      else decodeWord w = .error (.unrecognized w))

/-- R76, R77, R81: family 0x0 is CLS, RET or SYS and never Unrecognized, families 0x5 and 0x9 are recognized only with n = 0, and
every word of the ten families without sub-dispatch is recognized. R76 and R77 are the spec's decision D30. -/
def Obligations.RemainingFamiliesRecognizeAsTheMapSays : Prop :=
  ∀ w : Word,
    (fieldOp w = 0x0 → decodeWord w = .ok (if fieldNNN w = 0x0E0 then .cls else if fieldNNN w = 0x0EE then .ret
      else .sys (fieldNNN w))) ∧
    (fieldOp w = 0x5 ∨ fieldOp w = 0x9 →
      if (fieldN w).val = 0 then ∃ i, decodeWord w = .ok i else decodeWord w = .error (.unrecognized w)) ∧
    (fieldOp w ∈ [0x1, 0x2, 0x3, 0x4, 0x6, 0x7, 0xA, 0xB, 0xC, 0xD] → ∃ i, decodeWord w = .ok i)

/-- R75 and spec/opcode_table.json: a word decodes to an instruction exactly when a row of the table selects it by mask and match
and builds that instruction from the word's fields; and a word that no row selects is Unrecognized. -/
def Obligations.DecoderAgreesWithOpcodeTable : Prop :=
  ∀ w : Word,
    (∀ i, decodeWord w = .ok i ↔ ∃ r ∈ opcodeTable, r.selects w = true ∧ r.build w = i) ∧
    ((∀ r ∈ opcodeTable, r.selects w = false) → decodeWord w = .error (.unrecognized w))

/-- Words written out from R75 and from the vectors of spec/95_test_vectors.md L2.1, at least one of each of the sixteen families
and four Unrecognized ones, decode as the vectors say. The patterns are the spec's decision D1 (notes/assumptions/1.md). -/
def Obligations.WrittenOutWordsDecode : Prop :=
  decodeWord 0x00E0 = .ok .cls ∧ decodeWord 0x00EE = .ok .ret ∧ decodeWord 0x00E1 = .ok (.sys 0x0E1) ∧
  decodeWord 0x1ABC = .ok (.jp 0xABC) ∧ decodeWord 0x2ABC = .ok (.call 0xABC) ∧
  decodeWord 0x3A7F = .ok (.seImm 0xA 0x7F) ∧ decodeWord 0x4A7F = .ok (.sneImm 0xA 0x7F) ∧
  decodeWord 0x5AB0 = .ok (.seReg 0xA 0xB) ∧ decodeWord 0x6A7F = .ok (.ldImm 0xA 0x7F) ∧
  decodeWord 0x7A7F = .ok (.addImm 0xA 0x7F) ∧ decodeWord 0x8AB5 = .ok (.sub 0xA 0xB) ∧
  decodeWord 0x8ABE = .ok (.shl 0xA 0xB) ∧ decodeWord 0x9AB0 = .ok (.sneReg 0xA 0xB) ∧
  decodeWord 0xAABC = .ok (.ldI 0xABC) ∧ decodeWord 0xBABC = .ok (.jpV0 0xABC) ∧
  decodeWord 0xCA7F = .ok (.rnd 0xA 0x7F) ∧ decodeWord 0xDAB7 = .ok (.drw 0xA 0xB 0x7) ∧
  decodeWord 0xEAA1 = .ok (.sknp 0xA) ∧ decodeWord 0xFA0A = .ok (.ldVxK 0xA) ∧
  decodeWord 0xFA55 = .ok (.storeRegs 0xA) ∧ decodeWord 0x5AB1 = .error (.unrecognized 0x5AB1) ∧
  decodeWord 0x8AB8 = .error (.unrecognized 0x8AB8) ∧ decodeWord 0xEA9F = .error (.unrecognized 0xEA9F) ∧
  decodeWord 0xFFFF = .error (.unrecognized 0xFFFF)

/-! ### The step cycle -/

/-- R100, R102, R103, R105, R107: when the machine neither waits nor resumes and the two bytes at PC decode to i, the step is
exec of i at that state, and the step reports that it executed i. -/
def Obligations.StepRunsTheDecodedInstruction : Prop :=
  ∀ (s : State) (i : Instr), s.waiting = false → s.resume = false → s.pc.toNat ≤ 0xFFE →
    decodeWord (wordOfBytes (Memory.read s.mem s.pc.toNat) (Memory.read s.mem (s.pc.toNat + 1))) = .ok i →
    step s = exec i s ∧ ∀ t, exec i s = .next t → stepReport s = .next (t, .executed i)

/-- R101: a step in a wait changes nothing, moves no PC, and reports Waiting (the outcome's name is the spec's decision D29). -/
def Obligations.StepInAWaitChangesNothing : Prop :=
  ∀ s : State, s.waiting = true → step s = .next s ∧ stepReport s = .next (s, .waiting)

/-- R104: the step after a resolved wait advances PC by 2, clears `resume` and does nothing else (the spec's decision D9), and
reports KeyWaitCompleted. -/
def Obligations.StepAfterAResolvedWaitAdvancesPc : Prop :=
  ∀ s : State, s.waiting = false → s.resume = true →
    ∃ t, step s = .next t ∧ stepReport s = .next (t, .keyWaitCompleted) ∧ t.pc = s.pc + 2 ∧ t.resume = false ∧
      SameBut [.pc, .resume] s t

/-- R102, R233: a fetch one of whose bytes lies above 0xFFF ends the step with MemoryOutOfBounds of the first such address (that
both bytes must exist is the spec's decision D16). -/
def Obligations.FetchOutsideMemoryFaults : Prop :=
  ∀ s : State, s.waiting = false → s.resume = false → 0xFFE < s.pc.toNat →
    step s = .fault (.memoryOutOfBounds (if 0xFFF < s.pc.toNat then s.pc.toNat else 0x1000))

/-- R232: a fetched word that decodes to Unrecognized ends the step with UnrecognizedOpcode; the outcome carries no state, so the
machine and its PC stay. That the error carries the word is the spec's decision D29 (notes/assumptions/28.md). -/
def Obligations.UnrecognizedWordFaults : Prop :=
  ∀ (s : State) (w : Word), s.waiting = false → s.resume = false → fetch s = .next w →
    decodeWord w = .error (.unrecognized w) → step s = .fault (.unrecognizedOpcode w)

/-- THE MODEL'S OWN placing of a program word (notes/assumptions/9.md): after it, from every state, the next step runs exactly the
placed instruction. -/
def Obligations.PlacedWordIsTheNextInstruction : Prop :=
  ∀ (s : State) (w : Word) (i : Instr), Memory.wf s.mem → decodeWord w = .ok i →
    step (s.withFetchWord 16 w.toNat) = exec i (s.withFetchWord 16 w.toNat)

/-- R112, R122: a jump to its own address leaves the whole state as it was. That the target is the literal is the spec's decision
D8. -/
def Obligations.JumpToItselfRepeatsTheState : Prop :=
  ∀ (s : State) (nnn : Addr12), Executes s (.jp nnn) → s.pc.toNat = nnn.toNat → step s = .next s

/-! ### Invariants -/

/-- R42, R270: the invariant holds at construction. That an idle keypad's target is 0 there is the spec's decision D25
(notes/assumptions/26.md). -/
def Obligations.ResetMeetsTheInvariant : Prop := State.reset.Inv

/-- From every state that meets the invariant, a step that succeeds gives a state that meets it: memory canonical, the font
intact (R57), SP within its bound (R28), PC at most 0x10FE and every active return address at most 0x1000 (R27), PC at a
fetched FX0A throughout a wait (R216), no wait while `resume` is set (R40), an idle keypad's target cleared (R36). -/
def Obligations.StepKeepsTheInvariant : Prop :=
  ∀ s t : State, s.Inv → step s = .next t → t.Inv

/-- R258, R272: the invariant survives every schedule of host calls, and so holds of every state reached by booting any image and
any schedule. -/
def Obligations.EveryScheduleKeepsTheInvariant : Prop :=
  (∀ (cs : List HostCall) (s t : State), s.Inv → runSchedule cs s = .next t → t.Inv) ∧
  (∀ (image : List Byte) (cs : List HostCall) (t : State), boot image cs = .next t → t.Inv)

/-- R51, R52, R62: an accessor write that succeeds is seen by every later read of its address and by no read of another; it
keeps the canonical form; and a read or a write above 0xFFF is MemoryOutOfBounds of that address. -/
def Obligations.WrittenByteReadsBack : Prop :=
  ∀ (m : Memory) (a : Nat) (w : Byte), Memory.wf m →
    (∀ m', memWrite m a w = .next m' → Memory.wf m' ∧
      ∀ b, b ≤ 0xFFF → memRead m' b = .next (if b = a then w else Memory.read m b)) ∧
    (0xFFF < a → memRead m a = .fault (.memoryOutOfBounds a) ∧ memWrite m a w = .fault (.memoryOutOfBounds a))

/-- R57: "no write may target the font region": no step changes a font byte. That such a write is refused is the spec's decision
D19. -/
def Obligations.NoStepChangesTheFont : Prop :=
  ∀ (s t : State) (a : Nat), Memory.wf s.mem → inFont a → step s = .next t →
    Memory.read t.mem a = Memory.read s.mem a

/-! ### Rules of the whole machine -/

/-- R25, R106: every instruction that is not control flow leaves PC two further on, but for the wait for a key, which leaves PC
where it is. -/
def Obligations.StraightLineInstructionsAdvancePcByTwo : Prop :=
  ∀ (i : Instr) (s t : State), exec i s = .next t → isControlFlow i = false →
    ((∃ x, i = .ldVxK x) → t.pc = s.pc) ∧ ((¬ ∃ x, i = .ldVxK x) → t.pc = s.pc + 2)

/-- R21, R22: an instruction that is none of the six flag writers, and that does not name VF as the register it writes, leaves VF
as it was; and whatever a flag writer does, VF is 0 or 1 after it. -/
def Obligations.OnlyFlagWritersTouchVF : Prop :=
  ∀ (i : Instr) (s t : State), exec i s = .next t →
    (writesFlag i = false → writesVFAsData i = false → t.reg VF = s.reg VF) ∧
    (writesFlag i = true → t.reg VF = 0 ∨ t.reg VF = 1)

/-- R32, R111: of all host calls, a step touches a timer only by executing FX15 (the delay timer) or FX18 (the sound timer), and
beside those two instructions only `tick_timers()` changes one. Which instruction writes which timer is the spec's decision
D31 (notes/assumptions/29.md). -/
def Obligations.TimersChangeOnlyByWritesAndTicks : Prop :=
  ∀ (c : HostCall) (s t : State), hostCall c s = .next t →
    (t.dt = s.dt ∨ c = .tickTimers ∨ (c = .step ∧ ∃ x, Executes s (.ldDtVx x))) ∧
    (t.st = s.st ∨ c = .tickTimers ∨ (c = .step ∧ ∃ x, Executes s (.ldStVx x)))

/-- R33, R34, R196: a step changes a pixel or the redraw flag only by executing CLS or DRW; and a step that executes one of these
two ends with the flag set, whatever it changed, and with memory as it was. That every DRW sets the flag is the spec's
decision D20 (notes/assumptions/22.md). -/
def Obligations.StepsTouchTheDisplayOnlyByClsAndDrw : Prop :=
  ∀ s t : State, step s = .next t →
    ((t.px = s.px ∧ t.dirty = s.dirty) ∨ Executes s .cls ∨ ∃ x y n, Executes s (.drw x y n)) ∧
    ((Executes s .cls ∨ ∃ x y n, Executes s (.drw x y n)) → t.dirty = true ∧ t.mem = s.mem)

/-- R57, R60: a step changes a byte of memory only by executing FX33 or FX55, and then only one of the three bytes, or of the x + 1
bytes, at I. -/
def Obligations.StepsWriteMemoryOnlyByTransfers : Prop :=
  ∀ s t : State, Memory.wf s.mem → step s = .next t →
    t.mem = s.mem ∨
    (∃ x, Executes s (.ldB x) ∧ MemSameOutside s.i.toNat 3 s t) ∨
    (∃ x, Executes s (.storeRegs x) ∧ MemSameOutside s.i.toNat (x.val + 1) s t)

/-- R23, R28, R29: a step moves I only by executing ANNN, FX1E or FX29, SP only by CALL (up one) or RET (down one), and writes a
stack slot only by CALL, the slot SP pointed at. -/
def Obligations.AddressRegisterAndStackWriters : Prop :=
  ∀ s t : State, step s = .next t →
    (t.i = s.i ∨ (∃ nnn, Executes s (.ldI nnn)) ∨ (∃ x, Executes s (.addI x)) ∨ ∃ x, Executes s (.ldF x)) ∧
    (t.sp = s.sp ∨ ((∃ nnn, Executes s (.call nnn)) ∧ t.sp = s.sp + 1) ∨ (Executes s .ret ∧ t.sp + 1 = s.sp)) ∧
    (t.stack = s.stack ∨ ((∃ nnn, Executes s (.call nnn)) ∧ ∀ j, j ≠ s.sp → t.stackSlot j = s.stackSlot j))

/-- R37: of all host calls, only a step that executes the wait-for-key instruction takes the keypad from Idle to WaitingForKey,
with the instruction's register as the target, and only a key-down event takes it back. -/
def Obligations.KeypadWaitTransitions : Prop :=
  ∀ (c : HostCall) (s t : State), hostCall c s = .next t →
    (s.waiting = false → t.waiting = true → c = .step ∧ ∃ x, Executes s (.ldVxK x) ∧ t.target = x) ∧
    (s.waiting = true → t.waiting = false → ∃ k, c = .keyDown k)

/-! ### Register arithmetic and logic -/

/-- R140, R141: LD Vx, kk and ADD Vx, kk complete from every state; the result, the PC, and nothing else changes (VF among the
rest, unless it is Vx). -/
def Obligations.ImmediateLoadAndAdd : Prop :=
  ∀ (x : RegIdx) (kk : Byte) (s : State),
    (∃ t, exec (.ldImm x kk) s = .next t ∧ t.reg x = kk ∧ t.pc = s.pc + 2 ∧ RegsSameBut [x] s t ∧ SameBut [.v, .pc] s t) ∧
    (∃ t, exec (.addImm x kk) s = .next t ∧ (t.reg x).toNat = ((s.reg x).toNat + kk.toNat) % 256 ∧ t.pc = s.pc + 2 ∧
      RegsSameBut [x] s t ∧ SameBut [.v, .pc] s t)

/-- R142 to R145: LD Vx, Vy, OR, AND and XOR complete from every state; the result bit by bit, the PC, and nothing else changes. -/
def Obligations.CopyAndBitwise : Prop :=
  ∀ (x y : RegIdx) (s : State),
    (∃ t, exec (.ldReg x y) s = .next t ∧ t.reg x = s.reg y ∧ t.pc = s.pc + 2 ∧ RegsSameBut [x] s t ∧
      SameBut [.v, .pc] s t) ∧
    (∃ t, exec (.or x y) s = .next t ∧ (∀ b, (t.reg x).getLsbD b = ((s.reg x).getLsbD b || (s.reg y).getLsbD b)) ∧
      t.pc = s.pc + 2 ∧ RegsSameBut [x] s t ∧ SameBut [.v, .pc] s t) ∧
    (∃ t, exec (.and x y) s = .next t ∧ (∀ b, (t.reg x).getLsbD b = ((s.reg x).getLsbD b && (s.reg y).getLsbD b)) ∧
      t.pc = s.pc + 2 ∧ RegsSameBut [x] s t ∧ SameBut [.v, .pc] s t) ∧
    (∃ t, exec (.xor x y) s = .next t ∧
      (∀ b, (t.reg x).getLsbD b = ((s.reg x).getLsbD b ^^ (s.reg y).getLsbD b)) ∧
      t.pc = s.pc + 2 ∧ RegsSameBut [x] s t ∧ SameBut [.v, .pc] s t)

/-- R150: ADD Vx, Vy completes from every state; VF is 1 exactly when the exact sum exceeds 255, else 0, also where Vx or Vy is VF;
a Vx other than VF is the sum modulo 256. For x = 0xF the flag stands in VF (the spec's decision D6). -/
def Obligations.RegisterAddSetsCarry : Prop :=
  ∀ (x y : RegIdx) (s : State),
    ∃ t, exec (.addReg x y) s = .next t ∧
      (t.reg VF).toNat = (if (s.reg x).toNat + (s.reg y).toNat > 255 then 1 else 0) ∧
      (x ≠ VF → (t.reg x).toNat = ((s.reg x).toNat + (s.reg y).toNat) % 256) ∧
      t.pc = s.pc + 2 ∧ RegsSameBut [x, VF] s t ∧ SameBut [.v, .pc] s t

/-- R148, R151, R153: SUB and SUBN complete from every state; VF is 1 exactly when there is no borrow; a Vx other than VF is the
difference modulo 256. For x = 0xF the flag stands in VF (the spec's decision D6). -/
def Obligations.SubtractionsSetNoBorrow : Prop :=
  ∀ (x y : RegIdx) (s : State),
    (∃ t, exec (.sub x y) s = .next t ∧ (t.reg VF).toNat = (if (s.reg x).toNat ≥ (s.reg y).toNat then 1 else 0) ∧
      (x ≠ VF → ((t.reg x).toNat : Int) = (((s.reg x).toNat : Int) - (s.reg y).toNat) % 256) ∧
      t.pc = s.pc + 2 ∧ RegsSameBut [x, VF] s t ∧ SameBut [.v, .pc] s t) ∧
    (∃ t, exec (.subn x y) s = .next t ∧ (t.reg VF).toNat = (if (s.reg y).toNat ≥ (s.reg x).toNat then 1 else 0) ∧
      (x ≠ VF → ((t.reg x).toNat : Int) = (((s.reg y).toNat : Int) - (s.reg x).toNat) % 256) ∧
      t.pc = s.pc + 2 ∧ RegsSameBut [x, VF] s t ∧ SameBut [.v, .pc] s t)

/-- R149, R152, R154: the shifts complete from every state. The operand is Vx, or Vy for the other value of SHIFT_SOURCE (the
parameter is the spec's decision D5, notes/assumptions/6.md); VF is the bit shifted out, and a Vx other than VF the shifted
operand. With the spec's value Vx the y field has no effect (R84). -/
def Obligations.ShiftsMoveTheirBitToVF : Prop :=
  ∀ (x y : RegIdx) (s : State) (a : Byte), a = (match config.shiftSource with | .vx => s.reg x | .vy => s.reg y) →
    (∃ t, exec (.shr x y) s = .next t ∧ (t.reg VF).toNat = a.toNat % 2 ∧ (x ≠ VF → (t.reg x).toNat = a.toNat / 2) ∧
      t.pc = s.pc + 2 ∧ RegsSameBut [x, VF] s t ∧ SameBut [.v, .pc] s t) ∧
    (∃ t, exec (.shl x y) s = .next t ∧ (t.reg VF).toNat = a.toNat / 128 ∧
      (x ≠ VF → (t.reg x).toNat = a.toNat * 2 % 256) ∧
      t.pc = s.pc + 2 ∧ RegsSameBut [x, VF] s t ∧ SameBut [.v, .pc] s t) ∧
    (config.shiftSource = .vx → ∀ y', exec (.shr x y') s = exec (.shr x y) s ∧ exec (.shl x y') s = exec (.shl x y) s)

/-- R159: RND completes from every state; Vx is the free byte of this draw and the mask, so no bit outside the mask is set, and the
model's draw count moves on (notes/assumptions/2.md, the spec's decision D23). -/
def Obligations.RandomByteIsMasked : Prop :=
  ∀ (x : RegIdx) (kk : Byte) (s : State),
    ∃ t, exec (.rnd x kk) s = .next t ∧ t.reg x = Config.randByte s.draws &&& kk ∧
      (∀ b, kk.getLsbD b = false → (t.reg x).getLsbD b = false) ∧ t.draws = s.draws + 1 ∧ t.pc = s.pc + 2 ∧
      RegsSameBut [x] s t ∧ SameBut [.v, .pc, .draws] s t

/-! ### Control flow -/

/-- R124, R125: the skips on an immediate complete from every state and change PC alone. -/
def Obligations.SkipsOnAnImmediate : Prop :=
  ∀ (x : RegIdx) (kk : Byte) (s : State),
    (∃ t, exec (.seImm x kk) s = .next t ∧ t.pc = (if s.reg x = kk then s.pc + 4 else s.pc + 2) ∧ SameBut [.pc] s t) ∧
    (∃ t, exec (.sneImm x kk) s = .next t ∧ t.pc = (if s.reg x ≠ kk then s.pc + 4 else s.pc + 2) ∧ SameBut [.pc] s t)

/-- R126, R127: the skips on two registers complete from every state and change PC alone. -/
def Obligations.SkipsOnTwoRegisters : Prop :=
  ∀ (x y : RegIdx) (s : State),
    (∃ t, exec (.seReg x y) s = .next t ∧ t.pc = (if s.reg x = s.reg y then s.pc + 4 else s.pc + 2) ∧
      SameBut [.pc] s t) ∧
    (∃ t, exec (.sneReg x y) s = .next t ∧ t.pc = (if s.reg x ≠ s.reg y then s.pc + 4 else s.pc + 2) ∧
      SameBut [.pc] s t)

/-- R210, R211, R215: the key skips complete for a register value 0 to 15 and change PC alone; for a value above 15 they end in the
spec's refusal (its decision D11). -/
def Obligations.SkipsOnAKey : Prop :=
  ∀ (x : RegIdx) (s : State),
    (∀ k : KeyIdx, (s.reg x).toNat = k.val →
      (∃ t, exec (.skp x) s = .next t ∧ t.pc = (if s.keyDownNow k = true then s.pc + 4 else s.pc + 2) ∧
        SameBut [.pc] s t) ∧
      (∃ t, exec (.sknp x) s = .next t ∧ t.pc = (if s.keyDownNow k = false then s.pc + 4 else s.pc + 2) ∧
        SameBut [.pc] s t)) ∧
    (0xF < (s.reg x).toNat →
      exec (.skp x) s = .refused (.keyIndexOutOfRange (s.reg x)) ∧
      exec (.sknp x) s = .refused (.keyIndexOutOfRange (s.reg x)))

/-- R120, R122, R128: SYS, JP and JP V0 complete from every state and change PC alone: to the next instruction (the spec's decision
D7), to the literal (D8), to the literal plus V0 without any wrap. -/
def Obligations.JumpsWritePcAlone : Prop :=
  ∀ (nnn : Addr12) (s : State),
    (∃ t, exec (.sys nnn) s = .next t ∧ t.pc = s.pc + 2 ∧ SameBut [.pc] s t) ∧
    (∃ t, exec (.jp nnn) s = .next t ∧ t.pc.toNat = nnn.toNat ∧ SameBut [.pc] s t) ∧
    (∃ t, exec (.jpV0 nnn) s = .next t ∧ t.pc.toNat = nnn.toNat + (s.reg 0).toNat ∧ SameBut [.pc] s t)

/-- R123, R234: CALL completes on a stack that is not full: the address of the next instruction goes to slot SP, SP moves up, PC is
the literal. On a full stack it is StackOverflow (the depth and the threshold are the spec's decisions D2 and D36). -/
def Obligations.CallPushesTheReturnAddress : Prop :=
  ∀ (nnn : Addr12) (s : State),
    (s.sp < config.stackDepth →
      ∃ t, exec (.call nnn) s = .next t ∧ t.stackSlot s.sp = s.pc + 2 ∧ (∀ j, j ≠ s.sp → t.stackSlot j = s.stackSlot j) ∧
        t.sp = s.sp + 1 ∧ t.pc.toNat = nnn.toNat ∧ SameBut [.stack, .sp, .pc] s t) ∧
    (s.sp = config.stackDepth → exec (.call nnn) s = .fault .stackOverflow)

/-- R121, R235: RET completes on a stack that is not empty: SP moves down and PC is the slot it then points at; no slot changes
(that a pop keeps its slot is the spec's decision D26). On an empty stack it is StackUnderflow. -/
def Obligations.ReturnPopsTheReturnAddress : Prop :=
  ∀ s : State,
    (0 < s.sp → s.sp ≤ config.stackDepth →
      ∃ t, exec .ret s = .next t ∧ t.sp = s.sp - 1 ∧ t.pc = s.stackSlot (s.sp - 1) ∧ SameBut [.sp, .pc] s t) ∧
    (s.sp = 0 → exec .ret s = .fault .stackUnderflow)

/-- R121: "`call` then `return` restores PC to exactly the instruction following the `call`": from every state in which the
subroutine has left SP and the stack as CALL set them. -/
def Obligations.CallThenReturnComesBack : Prop :=
  ∀ (nnn : Addr12) (s t u : State), exec (.call nnn) s = .next t → u.sp = t.sp → u.stack = t.stack →
    ∃ r, exec .ret u = .next r ∧ r.pc = s.pc + 2 ∧ r.sp = s.sp ∧ SameBut [.sp, .pc] u r

/-! ### The address register and the memory transfers -/

/-- R171: LD I, nnn completes from every state and changes I and PC alone. -/
def Obligations.SetAddressRegister : Prop :=
  ∀ (nnn : Addr12) (s : State),
    ∃ t, exec (.ldI nnn) s = .next t ∧ t.i.toNat = nnn.toNat ∧ t.pc = s.pc + 2 ∧ SameBut [.i, .pc] s t

/-- R172: ADD I, Vx completes from every state; I is the sum modulo 65536 and VF is not written (the spec's decision D13). -/
def Obligations.AddToAddressRegister : Prop :=
  ∀ (x : RegIdx) (s : State),
    ∃ t, exec (.addI x) s = .next t ∧ t.i.toNat = (s.i.toNat + (s.reg x).toNat) % 65536 ∧ t.pc = s.pc + 2 ∧
      SameBut [.i, .pc] s t

/-- R173: LD F, Vx completes for a digit and sets I to FONT_BASE + 5·d, where the five bytes of the digit's glyph stand at
construction; for a value above 15 it is refused. Formula and refusal are the spec's decision D12. -/
def Obligations.GlyphLookup : Prop :=
  ∀ (x : RegIdx) (s : State),
    ((s.reg x).toNat ≤ 0xF →
      ∃ t, exec (.ldF x) s = .next t ∧ t.i.toNat = config.fontBase + 5 * (s.reg x).toNat ∧ t.pc = s.pc + 2 ∧
        (∀ k, k < 5 → Memory.read State.reset.mem (t.i.toNat + k) = config.fontTable.getD (5 * (s.reg x).toNat + k) 0) ∧
        SameBut [.i, .pc] s t) ∧
    (0xF < (s.reg x).toNat → exec (.ldF x) s = .refused (.fontDigitOutOfRange (s.reg x)))

/-- R174, R175: LD B, Vx completes where its three bytes exist and lie outside the font: the decimal digits, hundreds at I; every
other byte, and I, as before (that FX33 keeps I is the spec's decision D24). -/
def Obligations.BcdStore : Prop :=
  ∀ (x : RegIdx) (s : State), Memory.wf s.mem → InMemory s.i.toNat 3 → ClearOfFont s.i.toNat 3 →
    ∃ t, exec (.ldB x) s = .next t ∧
      (Memory.read t.mem s.i.toNat).toNat = (s.reg x).toNat / 100 ∧
      (Memory.read t.mem (s.i.toNat + 1)).toNat = (s.reg x).toNat / 10 % 10 ∧
      (Memory.read t.mem (s.i.toNat + 2)).toNat = (s.reg x).toNat % 10 ∧
      MemSameOutside s.i.toNat 3 s t ∧ t.pc = s.pc + 2 ∧ SameBut [.mem, .pc] s t

/-- R174, R176: LD [I], Vx completes where its x + 1 bytes exist and lie outside the font: register r at I + r; every other byte,
and I, as before. -/
def Obligations.RegisterBlockStore : Prop :=
  ∀ (x : RegIdx) (s : State), Memory.wf s.mem → InMemory s.i.toNat (x.val + 1) → ClearOfFont s.i.toNat (x.val + 1) →
    ∃ t, exec (.storeRegs x) s = .next t ∧ (∀ r : RegIdx, r ≤ x → Memory.read t.mem (s.i.toNat + r.val) = s.reg r) ∧
      MemSameOutside s.i.toNat (x.val + 1) s t ∧ t.pc = s.pc + 2 ∧ SameBut [.mem, .pc] s t

/-- R177: LD Vx, [I] completes where its x + 1 bytes exist: the byte at I + r in register r, the registers above x as before, I and
memory unchanged; where one of the bytes lies above 0xFFF it is MemoryOutOfBounds of max(I, 0x1000), with no register written
(the spec's decision D17, notes/assumptions/13.md). -/
def Obligations.RegisterBlockLoad : Prop :=
  ∀ (x : RegIdx) (s : State),
    (InMemory s.i.toNat (x.val + 1) →
      ∃ t, exec (.loadRegs x) s = .next t ∧ (∀ r : RegIdx, r ≤ x → t.reg r = Memory.read s.mem (s.i.toNat + r.val)) ∧
        (∀ r : RegIdx, x < r → t.reg r = s.reg r) ∧ t.pc = s.pc + 2 ∧ SameBut [.v, .pc] s t) ∧
    (0xFFF < s.i.toNat + x.val → exec (.loadRegs x) s = .fault (.memoryOutOfBounds (max s.i.toNat 0x1000)))

/-- R170, R175, R176, R192: a store or a sprite that reaches above 0xFFF is MemoryOutOfBounds of max(I, 0x1000); the outcome carries
no state, so nothing is written or drawn (the spec's decisions D17 and D22). -/
def Obligations.TransfersOutsideMemoryFault : Prop :=
  ∀ (x y : RegIdx) (n : Count) (s : State),
    (0xFFF < s.i.toNat + 2 → exec (.ldB x) s = .fault (.memoryOutOfBounds (max s.i.toNat 0x1000))) ∧
    (0xFFF < s.i.toNat + x.val → exec (.storeRegs x) s = .fault (.memoryOutOfBounds (max s.i.toNat 0x1000))) ∧
    (0 < n.val → 0xFFF < s.i.toNat + (n.val - 1) →
      exec (.drw x y n) s = .fault (.memoryOutOfBounds (max s.i.toNat 0x1000)))

/-- R57, R238: a store that would write a font byte is refused for the first such byte, with nothing written (the spec's decision
D19). -/
def Obligations.FontWritesAreRefused : Prop :=
  ∀ (x : RegIdx) (s : State) (j : Nat), inFont (s.i.toNat + j) → (∀ k, k < j → ¬ inFont (s.i.toNat + k)) →
    (j < 3 → exec (.ldB x) s = .refused (.fontRegionWrite (s.i.toNat + j))) ∧
    (j < x.val + 1 → exec (.storeRegs x) s = .refused (.fontRegionWrite (s.i.toNat + j)))

/-- R178: a block store and a later block load at the same I and x restore V0 to Vx, from every state in which the stored bytes
still stand. -/
def Obligations.BlockStoreThenLoadRestores : Prop :=
  ∀ (x : RegIdx) (s t u : State), Memory.wf s.mem → exec (.storeRegs x) s = .next t → u.i = s.i →
    (∀ k, k ≤ x.val → Memory.read u.mem (s.i.toNat + k) = Memory.read t.mem (s.i.toNat + k)) →
    ∃ r, exec (.loadRegs x) u = .next r ∧ (∀ k : RegIdx, k ≤ x → r.reg k = s.reg k) ∧
      (∀ k : RegIdx, x < k → r.reg k = u.reg k)

/-- R58, R65, R275: after FX55 or FX33 a fetch from any address reads the stored bytes where they were stored and the old bytes
elsewhere, high byte first, with no delay: V_r, V_(r+1) from I + r, and one stored byte beside one old byte at the ends of the
transfer (the spec's decision D27, notes/assumptions/20.md). -/
def Obligations.StoredBytesAreFetched : Prop :=
  ∀ (x : RegIdx) (s t u : State), Memory.wf s.mem → u.mem = t.mem → u.pc.toNat ≤ 0xFFE →
    (exec (.storeRegs x) s = .next t →
      fetch u = .next (wordOfBytes
        (byteAfterStore s.mem s.i.toNat (x.val + 1) (fun r => s.reg (Fin.ofNat 16 r)) u.pc.toNat)
        (byteAfterStore s.mem s.i.toNat (x.val + 1) (fun r => s.reg (Fin.ofNat 16 r)) (u.pc.toNat + 1)))) ∧
    (exec (.ldB x) s = .next t →
      fetch u = .next (wordOfBytes
        (byteAfterStore s.mem s.i.toNat 3 (fun k => BitVec.ofNat 8 ((s.reg x).toNat / 10 ^ (2 - k) % 10)) u.pc.toNat)
        (byteAfterStore s.mem s.i.toNat 3 (fun k => BitVec.ofNat 8 ((s.reg x).toNat / 10 ^ (2 - k) % 10)) (u.pc.toNat + 1))))

/-! ### The display -/

/-- R190: CLS completes from every state; all pixels are 0, the redraw flag is set, and nothing but PC changes beside. -/
def Obligations.ClearDisplay : Prop :=
  ∀ s : State, ∃ t, exec .cls s = .next t ∧ (∀ row col, t.px.pixel row col = false) ∧ t.dirty = true ∧
    t.pc = s.pc + 2 ∧ SameBut [.px, .dirty, .pc] s t

/-- R192 to R194: DRW completes where its n bytes exist; a pixel that a set bit of the sprite targets is inverted, every other pixel
is as before; VF is 1 exactly when a targeted pixel was 1; the redraw flag is set. The loop of the rule, as one formula over
pixels. Bit order, operand order and the flag's setting are the spec's decisions D32, D33 and D20. -/
def Obligations.DrawSprite : Prop :=
  ∀ (x y : RegIdx) (n : Count) (s : State), InMemory s.i.toNat n.val →
    ∃ t, exec (.drw x y n) s = .next t ∧
      (∀ row col, SpriteTargets s x y n row col → t.px.pixel row col = !s.px.pixel row col) ∧
      (∀ row col, ¬ SpriteTargets s x y n row col → t.px.pixel row col = s.px.pixel row col) ∧
      ((∃ row col, SpriteTargets s x y n row col ∧ s.px.pixel row col = true) → t.reg VF = 1) ∧
      ((¬ ∃ row col, SpriteTargets s x y n row col ∧ s.px.pixel row col = true) → t.reg VF = 0) ∧
      t.dirty = true ∧ t.pc = s.pc + 2 ∧ RegsSameBut [VF] s t ∧ SameBut [.v, .px, .dirty, .pc] s t

/-- R195: drawing the same sprite at the same place again restores every pixel, and the second collision flag is 1 exactly when a
targeted pixel was 0 before the first draw. `u` is any state with the first draw's display and the same sprite and place. Which
pixel a sprite bit targets is the spec's decision D32 (notes/assumptions/21.md). -/
def Obligations.DrawingTwiceRestoresTheDisplay : Prop :=
  ∀ (x y : RegIdx) (n : Count) (s t u : State), exec (.drw x y n) s = .next t → u.px = t.px → u.i = s.i →
    u.reg x = s.reg x → u.reg y = s.reg y →
    (∀ k, k < n.val → Memory.read u.mem (s.i.toNat + k) = Memory.read s.mem (s.i.toNat + k)) →
    ∃ r, exec (.drw x y n) u = .next r ∧ r.px = s.px ∧
      (r.reg VF = 1 ↔ ∃ row col, SpriteTargets s x y n row col ∧ s.px.pixel row col = false)

/-! ### Timers, keypad and host calls -/

/-- R212 to R214: the timer instructions complete from every state (their meanings are the spec's decision D31). -/
def Obligations.TimerReadAndWrites : Prop :=
  ∀ (x : RegIdx) (s : State),
    (∃ t, exec (.ldVxDt x) s = .next t ∧ t.reg x = s.dt ∧ t.pc = s.pc + 2 ∧ RegsSameBut [x] s t ∧ SameBut [.v, .pc] s t) ∧
    (∃ t, exec (.ldDtVx x) s = .next t ∧ t.dt = s.reg x ∧ t.pc = s.pc + 2 ∧ SameBut [.dt, .pc] s t) ∧
    (∃ t, exec (.ldStVx x) s = .next t ∧ t.st = s.reg x ∧ t.pc = s.pc + 2 ∧ SameBut [.st, .pc] s t)

/-- R216: LD Vx, K completes from every state: the wait flag and the target register, and nothing else; PC stays (the spec's
decision D9). -/
def Obligations.WaitForKeyEntersTheWait : Prop :=
  ∀ (x : RegIdx) (s : State),
    ∃ t, exec (.ldVxK x) s = .next t ∧ t.waiting = true ∧ t.target = x ∧ t.pc = s.pc ∧ SameBut [.waiting, .target] s t

/-- R245: a tick takes each counter down by one, clamped at zero, and writes nothing else; it cannot fail. -/
def Obligations.TickDecrementsBothTimers : Prop :=
  ∀ s : State, ∃ t, hostCall .tickTimers s = .next t ∧ t.dt.toNat = s.dt.toNat - 1 ∧ t.st.toNat = s.st.toNat - 1 ∧
    SameBut [.dt, .st] s t

/-- R247: a key-down records the key's state and, in a wait, resolves it: the key's value in the target register, the wait cleared,
`resume` set. That it records the state in any case is the spec's decision D10. -/
def Obligations.KeyDownRecordsAndResolves : Prop :=
  ∀ (k : KeyIdx) (s : State),
    ∃ t, hostCall (.keyDown k) s = .next t ∧ t.keyDownNow k = true ∧ (∀ j, j ≠ k → t.keyDownNow j = s.keyDownNow j) ∧
      (s.waiting = false → SameBut [.key] s t) ∧
      (s.waiting = true → (t.reg s.target).toNat = k.val ∧ t.waiting = false ∧ t.target = 0 ∧ t.resume = true ∧
        RegsSameBut [s.target] s t ∧ SameBut [.key, .v, .waiting, .target, .resume] s t)

/-- R248: a key-up clears the key's state and writes nothing else, so it never resolves a wait. -/
def Obligations.KeyUpClearsTheKey : Prop :=
  ∀ (k : KeyIdx) (s : State),
    ∃ t, hostCall (.keyUp k) s = .next t ∧ t.keyDownNow k = false ∧ (∀ j, j ≠ k → t.keyDownNow j = s.keyDownNow j) ∧
      SameBut [.key] s t

/-- R216, R217, R258, R261: a wait outlasts every schedule without a key-down, with registers, memory and PC as they were; then a
key-down puts the key's value in the target register and the next step, and no earlier one, moves PC past the FX0A (the
deferral is the spec's decision D9). -/
def Obligations.WaitEndsOnlyByAKeyDown : Prop :=
  ∀ (cs : List HostCall) (s : State) (k : KeyIdx), s.waiting = true → s.resume = false →
    (∀ j, HostCall.keyDown j ∉ cs) →
    ∃ t, runSchedule cs s = .next t ∧ SameBut [.dt, .st, .dirty, .key] s t ∧
      ∃ u, runSchedule (cs ++ [.keyDown k, .step]) s = .next u ∧ (u.reg s.target).toNat = k.val ∧ u.pc = s.pc + 2 ∧
        u.waiting = false ∧ u.resume = false ∧ RegsSameBut [s.target] s u

/-- R255: `clear_dirty()` clears the redraw flag and nothing else, and no other host call, a step among them, clears it. -/
def Obligations.OnlyClearDirtyClearsTheFlag : Prop :=
  (∀ s : State, ∃ t, hostCall .clearDirty s = .next t ∧ t.dirty = false ∧ SameBut [.dirty] s t) ∧
  (∀ (c : HostCall) (s t : State), hostCall c s = .next t → s.dirty = true → t.dirty = false → c = .clearDirty)

/-- R250: the loader writes the image from 0x200 on and nothing else; an image of at most 0xE00 bytes fits, a longer one is
MemoryOutOfBounds(0x1000) (the spec's decision D37). -/
def Obligations.LoaderFillsTheProgramArea : Prop :=
  ∀ (image : List Byte) (s : State), Memory.wf s.mem →
    (image.length ≤ 0xE00 →
      ∃ t, load image s = .next t ∧ (∀ k, k < image.length → Memory.read t.mem (0x200 + k) = image.getD k 0) ∧
        MemSameOutside 0x200 image.length s t ∧ SameBut [.mem] s t) ∧
    (0xE00 < image.length → load image s = .fault (.memoryOutOfBounds 0x1000))

/-- R42, R270: the machine at construction. The font's place and bytes and the keypad's values are the spec's decisions D3, D4 and
D25; `draws` is the model's own (notes/assumptions/2.md) and not claimed here. -/
def Obligations.ConstructionValues : Prop :=
  (∀ k, k < 80 → Memory.read State.reset.mem (config.fontBase + k) = config.fontTable.getD k 0) ∧
  (∀ a, a ≤ 0xFFF → ¬ inFont a → Memory.read State.reset.mem a = 0) ∧
  (∀ r, State.reset.reg r = 0) ∧ State.reset.i = 0 ∧ State.reset.pc = 0x200 ∧ State.reset.sp = 0 ∧
  (∀ j, j < config.stackDepth → State.reset.stackSlot j = 0) ∧ State.reset.dt = 0 ∧ State.reset.st = 0 ∧
  (∀ row col, State.reset.px.pixel row col = false) ∧ State.reset.dirty = false ∧
  (∀ k, State.reset.keyDownNow k = false) ∧ State.reset.waiting = false ∧ State.reset.target = 0 ∧
  State.reset.resume = false
end

