-- ==== Sys2Proof/Laws/Decode.lean ====
section
/-! SUPPORT. The fields of an encoded word: what each field accessor reads from each of the three encoding shapes
(spec/30_encoding.md R72), as values. -/

namespace Sys2Proof

/-! ### Fields as values -/

theorem fieldOp_eq (w : Word) : fieldOp w = w.toNat / 0x1000 := by
  have := w.isLt
  simp only [fieldOp, BitVec.extractLsb'_toNat, Nat.shiftRight_eq_div_pow]
  omega

theorem fieldX_val (w : Word) : (fieldX w).val = w.toNat / 0x100 % 16 := by
  show (w.extractLsb' 8 4).toNat = _
  simp only [BitVec.extractLsb'_toNat, Nat.shiftRight_eq_div_pow]

theorem fieldY_val (w : Word) : (fieldY w).val = w.toNat / 0x10 % 16 := by
  show (w.extractLsb' 4 4).toNat = _
  simp only [BitVec.extractLsb'_toNat, Nat.shiftRight_eq_div_pow]

theorem fieldN_val (w : Word) : (fieldN w).val = w.toNat % 16 := by
  show (w.extractLsb' 0 4).toNat = _
  simp only [BitVec.extractLsb'_toNat, Nat.shiftRight_eq_div_pow]
  omega

theorem fieldKK_toNat (w : Word) : (fieldKK w).toNat = w.toNat % 256 := by
  simp only [fieldKK, BitVec.extractLsb'_toNat, Nat.shiftRight_eq_div_pow]
  omega

theorem fieldNNN_toNat (w : Word) : (fieldNNN w).toNat = w.toNat % 4096 := by
  simp only [fieldNNN, BitVec.extractLsb'_toNat, Nat.shiftRight_eq_div_pow]
  omega

/-- R58: the word of two bytes has the first byte high. -/
theorem wordOfBytes_toNat (hi lo : Byte) : (wordOfBytes hi lo).toNat = hi.toNat * 256 + lo.toNat := by
  have := lo.isLt
  simp only [wordOfBytes, BitVec.toNat_append, Nat.shiftLeft_eq]
  rw [← Nat.shiftLeft_eq, ← Nat.shiftLeft_add_eq_or_of_lt this, Nat.shiftLeft_eq]

/-- R58: a word's bytes make the word again. -/
theorem wordOfBytes_bytesOfWord (w : Word) : wordOfBytes (w.extractLsb' 8 8) (w.extractLsb' 0 8) = w := by
  have := w.isLt
  apply BitVec.eq_of_toNat_eq
  rw [wordOfBytes_toNat]
  simp only [BitVec.extractLsb'_toNat, Nat.shiftRight_eq_div_pow]
  omega

/-! ### The three encoding shapes as values -/

theorem encNNN_toNat {p : Nat} (hp : p < 16) (nnn : Addr12) : (encNNN p nnn).toNat = p * 0x1000 + nnn.toNat := by
  have := nnn.isLt
  simp only [encNNN, BitVec.toNat_ofNat]
  omega

theorem encXKK_toNat {p k : Nat} (hp : p < 16) (x : RegIdx) (hk : k < 256) :
    (encXKK p x k).toNat = p * 0x1000 + x.val * 0x100 + k := by
  have := x.isLt
  simp only [encXKK, BitVec.toNat_ofNat]
  omega

theorem encXYN_toNat {p n : Nat} (hp : p < 16) (x y : RegIdx) (hn : n < 16) :
    (encXYN p x y n).toNat = p * 0x1000 + x.val * 0x100 + y.val * 0x10 + n := by
  have := x.isLt
  have := y.isLt
  simp only [encXYN, BitVec.toNat_ofNat]
  omega

/-! ### The fields of each shape -/

theorem fieldOp_encNNN {p : Nat} (hp : p < 16) (nnn : Addr12) : fieldOp (encNNN p nnn) = p := by
  have := nnn.isLt
  rw [fieldOp_eq, encNNN_toNat hp]; omega

theorem fieldNNN_encNNN {p : Nat} (hp : p < 16) (nnn : Addr12) : fieldNNN (encNNN p nnn) = nnn := by
  have := nnn.isLt
  apply BitVec.eq_of_toNat_eq
  rw [fieldNNN_toNat, encNNN_toNat hp]; omega

theorem fieldOp_encXKK {p k : Nat} (hp : p < 16) (x : RegIdx) (hk : k < 256) : fieldOp (encXKK p x k) = p := by
  have := x.isLt
  rw [fieldOp_eq, encXKK_toNat hp x hk]; omega

theorem fieldX_encXKK {p k : Nat} (hp : p < 16) (x : RegIdx) (hk : k < 256) : fieldX (encXKK p x k) = x := by
  have := x.isLt
  apply Fin.ext
  rw [fieldX_val, encXKK_toNat hp x hk]; omega

theorem fieldKK_encXKK {p k : Nat} (hp : p < 16) (x : RegIdx) (hk : k < 256) :
    fieldKK (encXKK p x k) = BitVec.ofNat 8 k := by
  have := x.isLt
  apply BitVec.eq_of_toNat_eq
  rw [fieldKK_toNat, encXKK_toNat hp x hk, BitVec.toNat_ofNat]; omega

theorem fieldOp_encXYN {p n : Nat} (hp : p < 16) (x y : RegIdx) (hn : n < 16) : fieldOp (encXYN p x y n) = p := by
  have := x.isLt
  have := y.isLt
  rw [fieldOp_eq, encXYN_toNat hp x y hn]; omega

theorem fieldX_encXYN {p n : Nat} (hp : p < 16) (x y : RegIdx) (hn : n < 16) : fieldX (encXYN p x y n) = x := by
  have := x.isLt
  have := y.isLt
  apply Fin.ext
  rw [fieldX_val, encXYN_toNat hp x y hn]; omega

theorem fieldY_encXYN {p n : Nat} (hp : p < 16) (x y : RegIdx) (hn : n < 16) : fieldY (encXYN p x y n) = y := by
  have := x.isLt
  have := y.isLt
  apply Fin.ext
  rw [fieldY_val, encXYN_toNat hp x y hn]; omega

theorem fieldN_encXYN {p n : Nat} (hp : p < 16) (x y : RegIdx) (hn : n < 16) : fieldN (encXYN p x y n) = ⟨n, hn⟩ := by
  have := x.isLt
  have := y.isLt
  apply Fin.ext
  rw [fieldN_val, encXYN_toNat hp x y hn]
  show _ = n
  omega

/-! ### Words as fields -/

/-- A word is its leading nibble and its literal (R72). -/
theorem encNNN_fields (w : Word) : encNNN (fieldOp w) (fieldNNN w) = w := by
  have := w.isLt
  apply BitVec.eq_of_toNat_eq
  rw [encNNN_toNat (by rw [fieldOp_eq]; omega), fieldOp_eq, fieldNNN_toNat]; omega

/-- A word is its leading nibble, its x field and its byte (R72). -/
theorem encXKK_fields (w : Word) : encXKK (fieldOp w) (fieldX w) (fieldKK w).toNat = w := by
  have := w.isLt
  have := (fieldKK w).isLt
  apply BitVec.eq_of_toNat_eq
  rw [encXKK_toNat (by rw [fieldOp_eq]; omega) _ (by omega), fieldOp_eq, fieldX_val, fieldKK_toNat]; omega

/-- A word is its four nibbles (R71, R72). -/
theorem encXYN_fields (w : Word) : encXYN (fieldOp w) (fieldX w) (fieldY w) (fieldN w).val = w := by
  have := w.isLt
  apply BitVec.eq_of_toNat_eq
  rw [encXYN_toNat (by rw [fieldOp_eq]; omega) _ _ (fieldN w).isLt, fieldOp_eq, fieldX_val, fieldY_val, fieldN_val]; omega

/-- The leading nibble has sixteen values (R74). -/
theorem fieldOp_lt (w : Word) : fieldOp w < 16 := by
  have := w.isLt
  rw [fieldOp_eq]; omega

/-! ### The masks of the opcode table as fields -/

/-- The mask 0xF000 keeps the leading nibble. -/
theorem and_F000_toNat (w : Word) : (w &&& 0xF000).toNat = w.toNat / 0x1000 * 0x1000 := by
  have hw := w.isLt
  have h : w &&& (0xF000 : Word) = (w >>> 12) <<< 12 := by
    apply BitVec.eq_of_getLsbD_eq; intro i hi
    interval_cases i <;> simp
  simp only [h, BitVec.toNat_shiftLeft, BitVec.toNat_ushiftRight, Nat.shiftLeft_eq, Nat.shiftRight_eq_div_pow]
  omega

/-- The mask 0xF00F keeps the leading and the last nibble. -/
theorem and_F00F_toNat (w : Word) : (w &&& 0xF00F).toNat = w.toNat / 0x1000 * 0x1000 + w.toNat % 16 := by
  have hw := w.isLt
  have h : w &&& (0xF00F : Word) = (w >>> 12 <<< 12) + ((w <<< 12) >>> 12) := by
    rw [BitVec.add_eq_or_of_and_eq_zero]
    · apply BitVec.eq_of_getLsbD_eq; intro i hi
      interval_cases i <;> simp
    · apply BitVec.eq_of_getLsbD_eq; intro i hi
      interval_cases i <;> simp
  simp only [h, BitVec.toNat_add, BitVec.toNat_shiftLeft, BitVec.toNat_ushiftRight, Nat.shiftLeft_eq,
    Nat.shiftRight_eq_div_pow]
  omega

/-- The mask 0xF0FF keeps the leading nibble and the last byte. -/
theorem and_F0FF_toNat (w : Word) : (w &&& 0xF0FF).toNat = w.toNat / 0x1000 * 0x1000 + w.toNat % 256 := by
  have hw := w.isLt
  have h : w &&& (0xF0FF : Word) = (w >>> 12 <<< 12) + ((w <<< 8) >>> 8) := by
    rw [BitVec.add_eq_or_of_and_eq_zero]
    · apply BitVec.eq_of_getLsbD_eq; intro i hi
      interval_cases i <;> simp
    · apply BitVec.eq_of_getLsbD_eq; intro i hi
      interval_cases i <;> simp
  simp only [h, BitVec.toNat_add, BitVec.toNat_shiftLeft, BitVec.toNat_ushiftRight, Nat.shiftLeft_eq,
    Nat.shiftRight_eq_div_pow]
  omega

end Sys2Proof
end

