-- ==== Sys2Proof/Laws/Memory.lean ====
section
/-! SUPPORT. The laws of the canonical memory: read after write, and that every memory operation keeps the canonical form. -/

namespace Sys2Proof.Machine

/-- Memory as construction leaves it reads as `resetByte`. -/
@[simp] theorem Memory.read_nil (a : Nat) : Memory.read [] a = resetByte a := rfl

/-- Reading past the head entry. -/
theorem Memory.read_cons (c : Host.Cell) (m : Memory) (a : Nat) :
    Memory.read (c :: m) a = if a = c.1 then c.2 else Memory.read m a := rfl

/-- Where every listed address is above `a`, `a` reads as at construction. -/
theorem Memory.read_of_lt {m : Memory} {a : Nat} (h : ∀ c ∈ m, a < c.1) : Memory.read m a = resetByte a := by
  induction m with
  | nil => rfl
  | cons c m ih =>
    have hc : a ≠ c.1 := Nat.ne_of_lt (h c (by simp))
    rw [Memory.read_cons, if_neg hc]
    exact ih fun d hd => h d (by simp [hd])

/-- Where `a` is listed nowhere, it reads as at construction. -/
theorem Memory.read_of_forall_ne {m : Memory} {a : Nat} (h : ∀ c ∈ m, c.1 ≠ a) : Memory.read m a = resetByte a := by
  induction m with
  | nil => rfl
  | cons c m ih =>
    rw [Memory.read_cons, if_neg fun e => h c (by simp) e.symm]
    exact ih fun d hd => h d (by simp [hd])

/-- Reading through an entry that may have been left out. -/
theorem Memory.read_consCell {a : Nat} {w : Byte} {rest : Memory} (h : ∀ c ∈ rest, a < c.1) (b : Nat) :
    Memory.read (Memory.consCell a w rest) b = if b = a then w else Memory.read rest b := by
  unfold Memory.consCell
  by_cases hw : w = resetByte a
  · rw [if_pos hw]
    by_cases hb : b = a
    · subst hb; rw [if_pos rfl, Memory.read_of_lt h, hw]
    · rw [if_neg hb]
  · rw [if_neg hw, Memory.read_cons]

/-- R62: a read sees the last write to its address, and no write to another one. -/
theorem Memory.read_write {m : Memory} (h : m.Pairwise fun c d => c.1 < d.1) (a b : Nat) (w : Byte) :
    Memory.read (Memory.write m a w) b = if b = a then w else Memory.read m b := by
  induction m with
  | nil => exact Memory.read_consCell (by simp) b
  | cons c m ih =>
    obtain ⟨k, u⟩ := c
    rw [List.pairwise_cons] at h
    simp only [Memory.write]
    split
    · rename_i hlt
      refine Memory.read_consCell (fun d hd => ?_) b
      rcases List.mem_cons.1 hd with rfl | hd
      · exact hlt
      · exact Nat.lt_trans hlt (h.1 d hd)
    · split
      · rename_i heq
        subst heq
        rw [Memory.read_consCell h.1, Memory.read_cons]
        by_cases hb : b = a <;> simp [hb]
      · rename_i hne
        rw [Memory.read_cons, ih h.2, Memory.read_cons]
        by_cases hb : b = a
        · subst hb; simp [hne]
        · simp [hb]

/-- An entry of a memory after a write is the written one or an old one. -/
theorem Memory.mem_write {m : Memory} {a : Nat} {w : Byte} {c : Host.Cell} (h : c ∈ Memory.write m a w) :
    (c = (a, w) ∧ w ≠ resetByte a) ∨ c ∈ m := by
  have key : ∀ rest : Memory, c ∈ Memory.consCell a w rest → (c = (a, w) ∧ w ≠ resetByte a) ∨ c ∈ rest := by
    intro rest hc
    unfold Memory.consCell at hc
    split at hc
    · exact .inr hc
    · rename_i hw
      rcases List.mem_cons.1 hc with rfl | hc
      · exact .inl ⟨rfl, hw⟩
      · exact .inr hc
  induction m with
  | nil => exact key [] h
  | cons d m ih =>
    obtain ⟨k, u⟩ := d
    simp only [Memory.write] at h
    split at h
    · exact key _ h
    · split at h
      · exact (key _ h).imp_right (List.mem_cons_of_mem _)
      · rcases List.mem_cons.1 h with rfl | h
        · exact .inr (by simp)
        · exact (ih h).imp_right (List.mem_cons_of_mem _)

/-- A write keeps the addresses strictly rising. -/
theorem Memory.pairwise_write {m : Memory} (h : m.Pairwise fun c d => c.1 < d.1) (a : Nat) (w : Byte) :
    (Memory.write m a w).Pairwise fun c d => c.1 < d.1 := by
  have key : ∀ rest : Memory, (rest.Pairwise fun c d => c.1 < d.1) → (∀ c ∈ rest, a < c.1) →
      (Memory.consCell a w rest).Pairwise fun c d => c.1 < d.1 := by
    intro rest hr hlt
    unfold Memory.consCell
    split
    · exact hr
    · exact List.pairwise_cons.2 ⟨hlt, hr⟩
  induction m with
  | nil => exact key [] .nil (by simp)
  | cons c m ih =>
    obtain ⟨k, u⟩ := c
    have h' := List.pairwise_cons.1 h
    simp only [Memory.write]
    split
    · rename_i hlt
      refine key _ h fun d hd => ?_
      rcases List.mem_cons.1 hd with rfl | hd
      · exact hlt
      · exact Nat.lt_trans hlt (h'.1 d hd)
    · split
      · rename_i heq
        exact key _ h'.2 (heq ▸ h'.1)
      · rename_i hge hne
        refine List.pairwise_cons.2 ⟨fun d hd => ?_, ih h'.2⟩
        rcases Memory.mem_write hd with ⟨rfl, -⟩ | hd
        · simp only; omega
        · exact h'.1 d hd

/-- A write to an address that exists keeps the canonical form. -/
theorem Memory.wf_write {m : Memory} (h : Memory.wf m) {a : Nat} (ha : a < config.memSize) (w : Byte) :
    Memory.wf (Memory.write m a w) := by
  refine ⟨Memory.pairwise_write h.1 a w, fun c hc => ?_⟩
  rcases Memory.mem_write hc with ⟨rfl, hw⟩ | hc
  · exact ⟨ha, hw⟩
  · exact h.2 c hc

/-- The canonical form is one form: two canonical memories that read alike at every address are the same data. -/
theorem Memory.eq_of_read_eq : ∀ {m m' : Memory}, Memory.wf m → Memory.wf m' →
    (∀ a, Memory.read m a = Memory.read m' a) → m = m' := by
  have tail : ∀ {c : Host.Cell} {m : Memory}, Memory.wf (c :: m) →
      (∀ d ∈ m, c.1 < d.1) ∧ c.2 ≠ resetByte c.1 ∧ Memory.wf m := fun h =>
    ⟨(List.pairwise_cons.1 h.1).1, (h.2 _ (by simp)).2, (List.pairwise_cons.1 h.1).2, fun d hd => h.2 d (by simp [hd])⟩
  -- an address below every listed one reads as at construction, so no entry can be missing on the other side
  have above : ∀ {c : Host.Cell} {m : Memory} {a : Nat}, (∀ d ∈ m, c.1 < d.1) → a < c.1 →
      Memory.read (c :: m) a = resetByte a := fun h ha =>
    Memory.read_of_lt fun d hd => by
      rcases List.mem_cons.1 hd with rfl | hd
      · exact ha
      · exact Nat.lt_trans ha (h d hd)
  intro m
  induction m with
  | nil =>
    intro m' _ h' h
    cases m' with
    | nil => rfl
    | cons c m' =>
      obtain ⟨-, hv, -⟩ := tail h'
      have := h c.1
      rw [Memory.read_nil, Memory.read_cons, if_pos rfl] at this
      exact absurd this.symm hv
  | cons c m ih =>
    intro m' hm hm' h
    obtain ⟨hlt, hv, hw⟩ := tail hm
    cases m' with
    | nil =>
      have := h c.1
      rw [Memory.read_nil, Memory.read_cons, if_pos rfl] at this
      exact absurd this hv
    | cons c' m' =>
      obtain ⟨hlt', hv', hw'⟩ := tail hm'
      have hk : c.1 = c'.1 := by
        rcases Nat.lt_trichotomy c.1 c'.1 with hl | he | hl
        · have := h c.1
          rw [above hlt' hl, Memory.read_cons, if_pos rfl] at this
          exact absurd this hv
        · exact he
        · have := h c'.1
          rw [above hlt hl, Memory.read_cons, if_pos rfl] at this
          exact absurd this.symm hv'
      have hb : c.2 = c'.2 := by
        have := h c.1
        rwa [Memory.read_cons, if_pos rfl, Memory.read_cons, if_pos hk] at this
      have hrest : ∀ a, Memory.read m a = Memory.read m' a := by
        intro a
        by_cases ha : a = c.1
        · subst ha
          rw [Memory.read_of_lt hlt, hk, Memory.read_of_lt hlt']
        · have := h a
          rwa [Memory.read_cons, if_neg ha, Memory.read_cons, if_neg (hk ▸ ha)] at this
      rw [ih hw hw' hrest, Prod.ext hk hb]

/-- Memory at construction is in canonical form. -/
theorem Memory.wf_nil : Memory.wf [] := by decide

end Sys2Proof.Machine
end

