-- ==== Sys2Proof/Laws/Ops.lean ====
section
/-! SUPPORT. One lemma for each shared operation of Machine/Ops.lean that says everything it can do. -/

namespace Sys2Proof.Machine

/-! ### thenDo -/

@[simp] theorem thenDo_next {α β : Type} (a : α) (f : α → Res β) : thenDo (.next a) f = f a := rfl
@[simp] theorem thenDo_fault {α β : Type} (r : Fault) (f : α → Res β) : thenDo (.fault r) f = .fault r := rfl
@[simp] theorem thenDo_refused {α β : Type} (r : Refusal) (f : α → Res β) : thenDo (.refused r) f = .refused r := rfl

/-- A sequence answers a value exactly when both parts do. -/
theorem thenDo_eq_next {α β : Type} {x : Res α} {f : α → Res β} {b : β} :
    thenDo x f = .next b ↔ ∃ a, x = .next a ∧ f a = .next b := by
  cases x <;> simp [thenDo]

/-- A sequence ends in an error exactly when one of its parts does. -/
theorem thenDo_eq_fault {α β : Type} {x : Res α} {f : α → Res β} {r : Fault} :
    thenDo x f = .fault r ↔ x = .fault r ∨ ∃ a, x = .next a ∧ f a = .fault r := by
  cases x <;> simp [thenDo]

/-- A sequence ends in a refusal exactly when one of its parts does. -/
theorem thenDo_eq_refused {α β : Type} {x : Res α} {f : α → Res β} {r : Refusal} :
    thenDo x f = .refused r ↔ x = .refused r ∨ ∃ a, x = .next a ∧ f a = .refused r := by
  cases x <;> simp [thenDo]

/-! ### One access -/

/-- R51, in bounds. -/
theorem memRead_of_lt {m : Memory} {a : Nat} (h : a < 0x1000) : memRead m a = .next (Memory.read m a) := by
  simp [memRead, h]

/-- R51, out of bounds. -/
theorem memRead_of_ge {m : Memory} {a : Nat} (h : ¬ a < 0x1000) : memRead m a = .fault (.memoryOutOfBounds a) := by
  simp [memRead, h]

/-- What a read can do. -/
theorem memRead_eq_next {m : Memory} {a : Nat} {b : Byte} :
    memRead m a = .next b ↔ a < 0x1000 ∧ b = Memory.read m a := by
  by_cases h : a < 0x1000 <;> simp [memRead, h, eq_comm]

/-- A read is never refused. -/
theorem memRead_ne_refused {m : Memory} {a : Nat} {r : Refusal} : memRead m a ≠ .refused r := by
  by_cases h : a < 0x1000 <;> simp [memRead, h]

/-- R52, in bounds and outside the font region. -/
theorem memWrite_of_ok {m : Memory} {a : Nat} {w : Byte} (h : a < 0x1000) (hf : ¬ inFont a) :
    memWrite m a w = .next (Memory.write m a w) := by
  simp only [memWrite, config_memSize, h, not_true_eq_false, if_false, if_neg hf]

/-- R52, out of bounds. -/
theorem memWrite_of_ge {m : Memory} {a : Nat} {w : Byte} (h : ¬ a < 0x1000) :
    memWrite m a w = .fault (.memoryOutOfBounds a) := by
  simp [memWrite, h]

/-- R57: a write into the font region. -/
theorem memWrite_of_font {m : Memory} {a : Nat} {w : Byte} (h : a < 0x1000) (hf : inFont a) :
    memWrite m a w = .refused (.fontRegionWrite a) := by
  simp only [memWrite, config_memSize, h, not_true_eq_false, if_false, if_pos hf]

/-- What a write can do. -/
theorem memWrite_eq_next {m m' : Memory} {a : Nat} {w : Byte} :
    memWrite m a w = .next m' ↔ a < 0x1000 ∧ ¬ inFont a ∧ m' = Memory.write m a w := by
  by_cases h : a < 0x1000
  · by_cases hf : inFont a
    · rw [memWrite_of_font h hf]; simp [hf]
    · rw [memWrite_of_ok h hf]; simp [h, hf, eq_comm]
  · rw [memWrite_of_ge h]; simp [h]

/-- The font region lies below the program area, so inside memory. -/
theorem lt_of_inFont {a : Nat} (h : inFont a) : a < 0x200 := by
  have := config_font_below_program
  exact Nat.lt_of_lt_of_le h.2 this

/-! ### Sequences of accesses -/

/-- What a sequence of reads answers: the bytes in ascending order, all of whose addresses exist. -/
theorem readBytes_eq_next {m : Memory} {n : Nat} : ∀ {a : Nat} {bs : List Byte},
    readBytes m a n = .next bs ↔
      (∀ k, k < n → a + k < 0x1000) ∧ bs = (List.range n).map fun k => Memory.read m (a + k) := by
  induction n with
  | zero => intro a bs; simp [readBytes, eq_comm]
  | succ n ih =>
    intro a bs
    simp only [readBytes, thenDo_eq_next, memRead_eq_next, Host.Outcome.next.injEq]
    constructor
    · rintro ⟨b, ⟨ha, rfl⟩, cs, hcs, rfl⟩
      obtain ⟨h1, rfl⟩ := ih.1 hcs
      refine ⟨fun k hk => ?_, ?_⟩
      · rcases k with _ | k
        · simpa using ha
        · have := h1 k (by omega); omega
      · rw [List.range_succ_eq_map]
        simp [Function.comp_def, Nat.add_assoc, Nat.add_comm 1]
    · rintro ⟨h, rfl⟩
      refine ⟨_, ⟨by simpa using h 0 (by omega), rfl⟩, _,
        ih.2 ⟨fun k hk => by have := h (k + 1) (by omega); omega, rfl⟩, ?_⟩
      rw [List.range_succ_eq_map]
      simp [Function.comp_def, Nat.add_assoc, Nat.add_comm 1]

/-- R170: a sequence of reads that reaches past the end of memory fails with the lowest failing address. -/
theorem readBytes_out_of_bounds {m : Memory} {n : Nat} : ∀ {a : Nat}, 0 < n → 0x1000 < a + n →
    readBytes m a n = .fault (.memoryOutOfBounds (max a 0x1000)) := by
  induction n with
  | zero => intro a h; omega
  | succ n ih =>
    intro a _ h
    by_cases ha : a < 0x1000
    · rw [readBytes, memRead_of_lt ha, thenDo_next, ih (by omega) (by omega), thenDo_fault]
      congr 2; omega
    · rw [readBytes, memRead_of_ge ha, thenDo_fault]
      congr 2; omega

/-- A sequence of reads is never refused. -/
theorem readBytes_ne_refused {m : Memory} {n : Nat} : ∀ {a : Nat} {r : Refusal}, readBytes m a n ≠ .refused r := by
  induction n with
  | zero => intro a r; simp [readBytes]
  | succ n ih => intro a r; simp [readBytes, thenDo_eq_refused, memRead_ne_refused, ih]

/-- What a sequence of writes answers: it needs every address to exist and to lie outside the font; then the canonical form is
kept, the bytes stand at their addresses and every other byte is as before. -/
theorem writeBytes_eq_next {bs : List Byte} : ∀ {m m' : Memory} {a : Nat}, writeBytes m a bs = .next m' →
    (∀ k, k < bs.length → a + k < 0x1000 ∧ ¬ inFont (a + k)) ∧
      (Memory.wf m → Memory.wf m') ∧
      (Memory.wf m → ∀ b, Memory.read m' b =
        if a ≤ b ∧ b < a + bs.length then bs.getD (b - a) 0 else Memory.read m b) := by
  induction bs with
  | nil =>
    intro m m' a h
    simp only [writeBytes, Host.Outcome.next.injEq] at h
    subst h
    refine ⟨by simp, id, fun _ b => ?_⟩
    rw [if_neg (by simp only [List.length_nil]; omega)]
  | cons c cs ih =>
    intro m m' a h
    obtain ⟨m1, h1, h2⟩ := thenDo_eq_next.1 h
    obtain ⟨ha, hf, rfl⟩ := memWrite_eq_next.1 h1
    obtain ⟨i1, i2, i3⟩ := ih h2
    refine ⟨fun k hk => ?_, fun hw => i2 (Memory.wf_write hw (by simpa using ha) c), fun hw b => ?_⟩
    · rcases k with _ | k
      · exact ⟨by simpa using ha, by simpa using hf⟩
      · have := i1 k (by simpa using hk)
        rwa [show a + 1 + k = a + (k + 1) by omega] at this
    · rw [i3 (Memory.wf_write hw (by simpa using ha) c) b, Memory.read_write hw.1]
      simp only [List.length_cons]
      by_cases hb : b = a
      · subst hb
        rw [if_neg (by omega), if_pos rfl, if_pos (by omega)]
        simp
      · rw [if_neg hb]
        by_cases hr : a ≤ b ∧ b < a + (cs.length + 1)
        · rw [if_pos hr, if_pos (by omega), show b - a = (b - (a + 1)) + 1 by omega]
          simp
        · rw [if_neg hr, if_neg (by omega)]

/-- After a sequence of writes, byte k of the sequence stands at its address. -/
theorem writeBytes_read_inside {m m' : Memory} {a : Nat} {bs : List Byte} (hw : Memory.wf m)
    (h : writeBytes m a bs = .next m') {k : Nat} (hk : k < bs.length) : Memory.read m' (a + k) = bs.getD k 0 := by
  rw [(writeBytes_eq_next h).2.2 hw, if_pos (by omega), Nat.add_sub_cancel_left]

/-- After a sequence of writes, every other byte is as before. -/
theorem writeBytes_read_outside {m m' : Memory} {a : Nat} {bs : List Byte} (hw : Memory.wf m)
    (h : writeBytes m a bs = .next m') {b : Nat} (hb : ¬ (a ≤ b ∧ b < a + bs.length)) :
    Memory.read m' b = Memory.read m b := by
  rw [(writeBytes_eq_next h).2.2 hw, if_neg hb]

/-- A sequence of writes changes no font byte (R57). -/
theorem writeBytes_read_font {m m' : Memory} {a : Nat} {bs : List Byte} (hw : Memory.wf m)
    (h : writeBytes m a bs = .next m') {b : Nat} (hb : inFont b) : Memory.read m' b = Memory.read m b := by
  refine writeBytes_read_outside hw h fun hr => ?_
  have := ((writeBytes_eq_next h).1 (b - a) (by omega)).2
  rw [Nat.add_sub_cancel' hr.1] at this
  exact this hb

/-- A sequence of writes keeps the canonical form. -/
theorem writeBytes_wf {m m' : Memory} {a : Nat} {bs : List Byte} (hw : Memory.wf m)
    (h : writeBytes m a bs = .next m') : Memory.wf m' := (writeBytes_eq_next h).2.1 hw

/-- A sequence of writes completes where every address exists and lies outside the font. -/
theorem writeBytes_completes {bs : List Byte} : ∀ {m : Memory} {a : Nat},
    (∀ k, k < bs.length → a + k < 0x1000 ∧ ¬ inFont (a + k)) → ∃ m', writeBytes m a bs = .next m' := by
  induction bs with
  | nil => intro m a _; exact ⟨m, rfl⟩
  | cons c cs ih =>
    intro m a h
    obtain ⟨ha, hf⟩ := h 0 (by simp)
    rw [writeBytes, memWrite_of_ok (by simpa using ha) (by simpa using hf), thenDo_next]
    refine ih fun k hk => ?_
    have := h (k + 1) (by simpa using hk)
    rwa [show a + (k + 1) = a + 1 + k by omega] at this

/-- R170: a sequence of writes that reaches past the end of memory without touching the font fails with the lowest failing
address. -/
theorem writeBytes_out_of_bounds {bs : List Byte} : ∀ {m : Memory} {a : Nat}, bs ≠ [] → 0x1000 < a + bs.length →
    (∀ k, k < bs.length → ¬ inFont (a + k)) → writeBytes m a bs = .fault (.memoryOutOfBounds (max a 0x1000)) := by
  induction bs with
  | nil => intro m a h; exact absurd rfl h
  | cons c cs ih =>
    intro m a _ h hf
    simp only [List.length_cons] at h
    by_cases ha : a < 0x1000
    · rw [writeBytes, memWrite_of_ok ha (by simpa using hf 0 (by simp)), thenDo_next]
      rw [ih (by rintro rfl; simp at h; omega) (by omega) (fun k hk => ?_)]
      · congr 2; omega
      · have := hf (k + 1) (by simpa using hk)
        rwa [show a + (k + 1) = a + 1 + k by omega] at this
    · rw [writeBytes, memWrite_of_ge ha, thenDo_fault]
      congr 2; omega

/-- R57: a sequence of writes that reaches the font region before the end of memory is refused for its first font byte. -/
theorem writeBytes_font {bs : List Byte} : ∀ {m : Memory} {a j : Nat}, j < bs.length → inFont (a + j) →
    (∀ k, k < j → ¬ inFont (a + k)) → writeBytes m a bs = .refused (.fontRegionWrite (a + j)) := by
  induction bs with
  | nil => intro m a j hj; simp at hj
  | cons c cs ih =>
    intro m a j hj hf hb
    have ha : a < 0x1000 := by have := lt_of_inFont hf; omega
    rcases j with _ | j
    · rw [writeBytes, memWrite_of_font ha (by simpa using hf), thenDo_refused, Nat.add_zero]
    · rw [writeBytes, memWrite_of_ok ha (by simpa using hb 0 (by omega)), thenDo_next,
        show a + (j + 1) = a + 1 + j by omega]
      refine ih (by simpa using hj) (by rwa [show a + 1 + j = a + (j + 1) by omega]) fun k hk => ?_
      have := hb (k + 1) (by omega)
      rwa [show a + (k + 1) = a + 1 + k by omega] at this

/-! ### Fetch -/

/-- R102: a fetch succeeds exactly when both bytes exist, and answers them high byte first. -/
theorem fetch_eq_next {s : State} {w : Word} :
    fetch s = .next w ↔ s.pc.toNat + 1 < 0x1000 ∧
      w = wordOfBytes (Memory.read s.mem s.pc.toNat) (Memory.read s.mem (s.pc.toNat + 1)) := by
  simp only [fetch, thenDo_eq_next, memRead_eq_next, Host.Outcome.next.injEq]
  constructor
  · rintro ⟨_, ⟨_, rfl⟩, _, ⟨h, rfl⟩, rfl⟩; exact ⟨h, rfl⟩
  · rintro ⟨h, rfl⟩; exact ⟨_, ⟨by omega, rfl⟩, _, ⟨h, rfl⟩, rfl⟩

/-- R233: a fetch that fails names the first of its two addresses above 0xFFF. -/
theorem fetch_out_of_bounds {s : State} (h : 0x1000 ≤ s.pc.toNat + 1) :
    fetch s = .fault (.memoryOutOfBounds (max s.pc.toNat 0x1000)) := by
  by_cases hp : s.pc.toNat < 0x1000
  · rw [fetch, memRead_of_lt hp, thenDo_next, memRead_of_ge (by omega), thenDo_fault]
    congr 2; omega
  · rw [fetch, memRead_of_ge hp, thenDo_fault]
    congr 2; omega

/-! ### The return stack -/

/-- What a push does (R123). -/
theorem pushReturn_eq_next {s t : State} {v : Word} :
    pushReturn s v = .next t ↔ s.sp < config.stackDepth ∧ t = s.pushSlot v := by
  by_cases h : s.sp < config.stackDepth <;> simp [pushReturn, h, eq_comm]

/-- What a pop does (R121). -/
theorem popReturn_eq_next {s : State} {r : Word × State} :
    popReturn s = .next r ↔ 0 < s.sp ∧ r = (s.stackSlot (s.sp - 1), s.setSp (s.sp - 1)) := by
  unfold popReturn
  split
  · rename_i h; simp [h]
  · rename_i k h; simp [h, eq_comm]

/-- A slot after a push: the pushed value at SP, every other slot as before (R29). -/
theorem State.pushSlot_stackSlot (s : State) (v : Word) (j : Nat) (h : s.sp < config.stackDepth) :
    (s.pushSlot v).stackSlot j = if j = s.sp then v else s.stackSlot j := by
  unfold State.stackSlot State.pushSlot
  by_cases hj : j < config.stackDepth
  · simp only [hj, dif_pos, Vector.getElem_setIfInBounds, eq_comm (a := s.sp)]
  · have : j ≠ s.sp := fun e => hj (e ▸ h)
    simp [hj, this]

end Sys2Proof.Machine
end

