-- ==== Sys2Proof/Laws/State.lean ====
section
/-! SUPPORT. What each named update of the state leaves in each field, one lemma per field and update, true by unfolding, so that
no later proof opens a record update; and the register and stack-slot reads over each update. -/

namespace Sys2Proof.Machine

/-! ### State.advance -/

@[simp] theorem State.advance_mem (s : State) : s.advance.mem = s.mem := rfl
@[simp] theorem State.advance_v (s : State) : s.advance.v = s.v := rfl
@[simp] theorem State.advance_i (s : State) : s.advance.i = s.i := rfl
@[simp] theorem State.advance_pc (s : State) : s.advance.pc = s.pc + 2 := rfl
@[simp] theorem State.advance_sp (s : State) : s.advance.sp = s.sp := rfl
@[simp] theorem State.advance_stack (s : State) : s.advance.stack = s.stack := rfl
@[simp] theorem State.advance_dt (s : State) : s.advance.dt = s.dt := rfl
@[simp] theorem State.advance_st (s : State) : s.advance.st = s.st := rfl
@[simp] theorem State.advance_px (s : State) : s.advance.px = s.px := rfl
@[simp] theorem State.advance_dirty (s : State) : s.advance.dirty = s.dirty := rfl
@[simp] theorem State.advance_key (s : State) : s.advance.key = s.key := rfl
@[simp] theorem State.advance_waiting (s : State) : s.advance.waiting = s.waiting := rfl
@[simp] theorem State.advance_target (s : State) : s.advance.target = s.target := rfl
@[simp] theorem State.advance_resume (s : State) : s.advance.resume = s.resume := rfl
@[simp] theorem State.advance_draws (s : State) : s.advance.draws = s.draws := rfl
@[simp] theorem State.advance_reg (s : State) (r : RegIdx) : s.advance.reg r = s.reg r := rfl
@[simp] theorem State.advance_stackSlot (s : State) (j : Nat) : s.advance.stackSlot j = s.stackSlot j := rfl

/-! ### State.skipNext -/

@[simp] theorem State.skipNext_mem (s : State) : s.skipNext.mem = s.mem := rfl
@[simp] theorem State.skipNext_v (s : State) : s.skipNext.v = s.v := rfl
@[simp] theorem State.skipNext_i (s : State) : s.skipNext.i = s.i := rfl
@[simp] theorem State.skipNext_pc (s : State) : s.skipNext.pc = s.pc + 4 := rfl
@[simp] theorem State.skipNext_sp (s : State) : s.skipNext.sp = s.sp := rfl
@[simp] theorem State.skipNext_stack (s : State) : s.skipNext.stack = s.stack := rfl
@[simp] theorem State.skipNext_dt (s : State) : s.skipNext.dt = s.dt := rfl
@[simp] theorem State.skipNext_st (s : State) : s.skipNext.st = s.st := rfl
@[simp] theorem State.skipNext_px (s : State) : s.skipNext.px = s.px := rfl
@[simp] theorem State.skipNext_dirty (s : State) : s.skipNext.dirty = s.dirty := rfl
@[simp] theorem State.skipNext_key (s : State) : s.skipNext.key = s.key := rfl
@[simp] theorem State.skipNext_waiting (s : State) : s.skipNext.waiting = s.waiting := rfl
@[simp] theorem State.skipNext_target (s : State) : s.skipNext.target = s.target := rfl
@[simp] theorem State.skipNext_resume (s : State) : s.skipNext.resume = s.resume := rfl
@[simp] theorem State.skipNext_draws (s : State) : s.skipNext.draws = s.draws := rfl
@[simp] theorem State.skipNext_reg (s : State) (r : RegIdx) : s.skipNext.reg r = s.reg r := rfl
@[simp] theorem State.skipNext_stackSlot (s : State) (j : Nat) : s.skipNext.stackSlot j = s.stackSlot j := rfl

/-! ### State.setPc -/

@[simp] theorem State.setPc_mem (s : State) (w : Word) : (s.setPc w).mem = s.mem := rfl
@[simp] theorem State.setPc_v (s : State) (w : Word) : (s.setPc w).v = s.v := rfl
@[simp] theorem State.setPc_i (s : State) (w : Word) : (s.setPc w).i = s.i := rfl
@[simp] theorem State.setPc_pc (s : State) (w : Word) : (s.setPc w).pc = w := rfl
@[simp] theorem State.setPc_sp (s : State) (w : Word) : (s.setPc w).sp = s.sp := rfl
@[simp] theorem State.setPc_stack (s : State) (w : Word) : (s.setPc w).stack = s.stack := rfl
@[simp] theorem State.setPc_dt (s : State) (w : Word) : (s.setPc w).dt = s.dt := rfl
@[simp] theorem State.setPc_st (s : State) (w : Word) : (s.setPc w).st = s.st := rfl
@[simp] theorem State.setPc_px (s : State) (w : Word) : (s.setPc w).px = s.px := rfl
@[simp] theorem State.setPc_dirty (s : State) (w : Word) : (s.setPc w).dirty = s.dirty := rfl
@[simp] theorem State.setPc_key (s : State) (w : Word) : (s.setPc w).key = s.key := rfl
@[simp] theorem State.setPc_waiting (s : State) (w : Word) : (s.setPc w).waiting = s.waiting := rfl
@[simp] theorem State.setPc_target (s : State) (w : Word) : (s.setPc w).target = s.target := rfl
@[simp] theorem State.setPc_resume (s : State) (w : Word) : (s.setPc w).resume = s.resume := rfl
@[simp] theorem State.setPc_draws (s : State) (w : Word) : (s.setPc w).draws = s.draws := rfl
@[simp] theorem State.setPc_reg (s : State) (w : Word) (r : RegIdx) : (s.setPc w).reg r = s.reg r := rfl
@[simp] theorem State.setPc_stackSlot (s : State) (w : Word) (j : Nat) : (s.setPc w).stackSlot j = s.stackSlot j := rfl

/-! ### State.setReg -/

@[simp] theorem State.setReg_mem (s : State) (x : RegIdx) (w : Byte) : (s.setReg x w).mem = s.mem := rfl
@[simp] theorem State.setReg_v (s : State) (x : RegIdx) (w : Byte) : (s.setReg x w).v = s.v.set x.val w := rfl
@[simp] theorem State.setReg_i (s : State) (x : RegIdx) (w : Byte) : (s.setReg x w).i = s.i := rfl
@[simp] theorem State.setReg_pc (s : State) (x : RegIdx) (w : Byte) : (s.setReg x w).pc = s.pc := rfl
@[simp] theorem State.setReg_sp (s : State) (x : RegIdx) (w : Byte) : (s.setReg x w).sp = s.sp := rfl
@[simp] theorem State.setReg_stack (s : State) (x : RegIdx) (w : Byte) : (s.setReg x w).stack = s.stack := rfl
@[simp] theorem State.setReg_dt (s : State) (x : RegIdx) (w : Byte) : (s.setReg x w).dt = s.dt := rfl
@[simp] theorem State.setReg_st (s : State) (x : RegIdx) (w : Byte) : (s.setReg x w).st = s.st := rfl
@[simp] theorem State.setReg_px (s : State) (x : RegIdx) (w : Byte) : (s.setReg x w).px = s.px := rfl
@[simp] theorem State.setReg_dirty (s : State) (x : RegIdx) (w : Byte) : (s.setReg x w).dirty = s.dirty := rfl
@[simp] theorem State.setReg_key (s : State) (x : RegIdx) (w : Byte) : (s.setReg x w).key = s.key := rfl
@[simp] theorem State.setReg_waiting (s : State) (x : RegIdx) (w : Byte) : (s.setReg x w).waiting = s.waiting := rfl
@[simp] theorem State.setReg_target (s : State) (x : RegIdx) (w : Byte) : (s.setReg x w).target = s.target := rfl
@[simp] theorem State.setReg_resume (s : State) (x : RegIdx) (w : Byte) : (s.setReg x w).resume = s.resume := rfl
@[simp] theorem State.setReg_draws (s : State) (x : RegIdx) (w : Byte) : (s.setReg x w).draws = s.draws := rfl
@[simp] theorem State.setReg_stackSlot (s : State) (x : RegIdx) (w : Byte) (j : Nat) : (s.setReg x w).stackSlot j = s.stackSlot j := rfl

/-! ### State.setFlag -/

@[simp] theorem State.setFlag_mem (s : State) (c : Bool) : (s.setFlag c).mem = s.mem := rfl
@[simp] theorem State.setFlag_v (s : State) (c : Bool) : (s.setFlag c).v = s.v.set 15 (flagByte c) := rfl
@[simp] theorem State.setFlag_i (s : State) (c : Bool) : (s.setFlag c).i = s.i := rfl
@[simp] theorem State.setFlag_pc (s : State) (c : Bool) : (s.setFlag c).pc = s.pc := rfl
@[simp] theorem State.setFlag_sp (s : State) (c : Bool) : (s.setFlag c).sp = s.sp := rfl
@[simp] theorem State.setFlag_stack (s : State) (c : Bool) : (s.setFlag c).stack = s.stack := rfl
@[simp] theorem State.setFlag_dt (s : State) (c : Bool) : (s.setFlag c).dt = s.dt := rfl
@[simp] theorem State.setFlag_st (s : State) (c : Bool) : (s.setFlag c).st = s.st := rfl
@[simp] theorem State.setFlag_px (s : State) (c : Bool) : (s.setFlag c).px = s.px := rfl
@[simp] theorem State.setFlag_dirty (s : State) (c : Bool) : (s.setFlag c).dirty = s.dirty := rfl
@[simp] theorem State.setFlag_key (s : State) (c : Bool) : (s.setFlag c).key = s.key := rfl
@[simp] theorem State.setFlag_waiting (s : State) (c : Bool) : (s.setFlag c).waiting = s.waiting := rfl
@[simp] theorem State.setFlag_target (s : State) (c : Bool) : (s.setFlag c).target = s.target := rfl
@[simp] theorem State.setFlag_resume (s : State) (c : Bool) : (s.setFlag c).resume = s.resume := rfl
@[simp] theorem State.setFlag_draws (s : State) (c : Bool) : (s.setFlag c).draws = s.draws := rfl
@[simp] theorem State.setFlag_stackSlot (s : State) (c : Bool) (j : Nat) : (s.setFlag c).stackSlot j = s.stackSlot j := rfl

/-! ### State.setRegFlag -/

@[simp] theorem State.setRegFlag_mem (s : State) (x : RegIdx) (w : Byte) (c : Bool) : (s.setRegFlag x w c).mem = s.mem := rfl
@[simp] theorem State.setRegFlag_v (s : State) (x : RegIdx) (w : Byte) (c : Bool) : (s.setRegFlag x w c).v = (s.v.set x.val w).set 15 (flagByte c) := rfl
@[simp] theorem State.setRegFlag_i (s : State) (x : RegIdx) (w : Byte) (c : Bool) : (s.setRegFlag x w c).i = s.i := rfl
@[simp] theorem State.setRegFlag_pc (s : State) (x : RegIdx) (w : Byte) (c : Bool) : (s.setRegFlag x w c).pc = s.pc := rfl
@[simp] theorem State.setRegFlag_sp (s : State) (x : RegIdx) (w : Byte) (c : Bool) : (s.setRegFlag x w c).sp = s.sp := rfl
@[simp] theorem State.setRegFlag_stack (s : State) (x : RegIdx) (w : Byte) (c : Bool) : (s.setRegFlag x w c).stack = s.stack := rfl
@[simp] theorem State.setRegFlag_dt (s : State) (x : RegIdx) (w : Byte) (c : Bool) : (s.setRegFlag x w c).dt = s.dt := rfl
@[simp] theorem State.setRegFlag_st (s : State) (x : RegIdx) (w : Byte) (c : Bool) : (s.setRegFlag x w c).st = s.st := rfl
@[simp] theorem State.setRegFlag_px (s : State) (x : RegIdx) (w : Byte) (c : Bool) : (s.setRegFlag x w c).px = s.px := rfl
@[simp] theorem State.setRegFlag_dirty (s : State) (x : RegIdx) (w : Byte) (c : Bool) : (s.setRegFlag x w c).dirty = s.dirty := rfl
@[simp] theorem State.setRegFlag_key (s : State) (x : RegIdx) (w : Byte) (c : Bool) : (s.setRegFlag x w c).key = s.key := rfl
@[simp] theorem State.setRegFlag_waiting (s : State) (x : RegIdx) (w : Byte) (c : Bool) : (s.setRegFlag x w c).waiting = s.waiting := rfl
@[simp] theorem State.setRegFlag_target (s : State) (x : RegIdx) (w : Byte) (c : Bool) : (s.setRegFlag x w c).target = s.target := rfl
@[simp] theorem State.setRegFlag_resume (s : State) (x : RegIdx) (w : Byte) (c : Bool) : (s.setRegFlag x w c).resume = s.resume := rfl
@[simp] theorem State.setRegFlag_draws (s : State) (x : RegIdx) (w : Byte) (c : Bool) : (s.setRegFlag x w c).draws = s.draws := rfl
@[simp] theorem State.setRegFlag_stackSlot (s : State) (x : RegIdx) (w : Byte) (c : Bool) (j : Nat) : (s.setRegFlag x w c).stackSlot j = s.stackSlot j := rfl

/-! ### State.setI -/

@[simp] theorem State.setI_mem (s : State) (w : Word) : (s.setI w).mem = s.mem := rfl
@[simp] theorem State.setI_v (s : State) (w : Word) : (s.setI w).v = s.v := rfl
@[simp] theorem State.setI_i (s : State) (w : Word) : (s.setI w).i = w := rfl
@[simp] theorem State.setI_pc (s : State) (w : Word) : (s.setI w).pc = s.pc := rfl
@[simp] theorem State.setI_sp (s : State) (w : Word) : (s.setI w).sp = s.sp := rfl
@[simp] theorem State.setI_stack (s : State) (w : Word) : (s.setI w).stack = s.stack := rfl
@[simp] theorem State.setI_dt (s : State) (w : Word) : (s.setI w).dt = s.dt := rfl
@[simp] theorem State.setI_st (s : State) (w : Word) : (s.setI w).st = s.st := rfl
@[simp] theorem State.setI_px (s : State) (w : Word) : (s.setI w).px = s.px := rfl
@[simp] theorem State.setI_dirty (s : State) (w : Word) : (s.setI w).dirty = s.dirty := rfl
@[simp] theorem State.setI_key (s : State) (w : Word) : (s.setI w).key = s.key := rfl
@[simp] theorem State.setI_waiting (s : State) (w : Word) : (s.setI w).waiting = s.waiting := rfl
@[simp] theorem State.setI_target (s : State) (w : Word) : (s.setI w).target = s.target := rfl
@[simp] theorem State.setI_resume (s : State) (w : Word) : (s.setI w).resume = s.resume := rfl
@[simp] theorem State.setI_draws (s : State) (w : Word) : (s.setI w).draws = s.draws := rfl
@[simp] theorem State.setI_reg (s : State) (w : Word) (r : RegIdx) : (s.setI w).reg r = s.reg r := rfl
@[simp] theorem State.setI_stackSlot (s : State) (w : Word) (j : Nat) : (s.setI w).stackSlot j = s.stackSlot j := rfl

/-! ### State.setMem -/

@[simp] theorem State.setMem_mem (s : State) (m : Memory) : (s.setMem m).mem = m := rfl
@[simp] theorem State.setMem_v (s : State) (m : Memory) : (s.setMem m).v = s.v := rfl
@[simp] theorem State.setMem_i (s : State) (m : Memory) : (s.setMem m).i = s.i := rfl
@[simp] theorem State.setMem_pc (s : State) (m : Memory) : (s.setMem m).pc = s.pc := rfl
@[simp] theorem State.setMem_sp (s : State) (m : Memory) : (s.setMem m).sp = s.sp := rfl
@[simp] theorem State.setMem_stack (s : State) (m : Memory) : (s.setMem m).stack = s.stack := rfl
@[simp] theorem State.setMem_dt (s : State) (m : Memory) : (s.setMem m).dt = s.dt := rfl
@[simp] theorem State.setMem_st (s : State) (m : Memory) : (s.setMem m).st = s.st := rfl
@[simp] theorem State.setMem_px (s : State) (m : Memory) : (s.setMem m).px = s.px := rfl
@[simp] theorem State.setMem_dirty (s : State) (m : Memory) : (s.setMem m).dirty = s.dirty := rfl
@[simp] theorem State.setMem_key (s : State) (m : Memory) : (s.setMem m).key = s.key := rfl
@[simp] theorem State.setMem_waiting (s : State) (m : Memory) : (s.setMem m).waiting = s.waiting := rfl
@[simp] theorem State.setMem_target (s : State) (m : Memory) : (s.setMem m).target = s.target := rfl
@[simp] theorem State.setMem_resume (s : State) (m : Memory) : (s.setMem m).resume = s.resume := rfl
@[simp] theorem State.setMem_draws (s : State) (m : Memory) : (s.setMem m).draws = s.draws := rfl
@[simp] theorem State.setMem_reg (s : State) (m : Memory) (r : RegIdx) : (s.setMem m).reg r = s.reg r := rfl
@[simp] theorem State.setMem_stackSlot (s : State) (m : Memory) (j : Nat) : (s.setMem m).stackSlot j = s.stackSlot j := rfl

/-! ### State.setDt -/

@[simp] theorem State.setDt_mem (s : State) (w : Byte) : (s.setDt w).mem = s.mem := rfl
@[simp] theorem State.setDt_v (s : State) (w : Byte) : (s.setDt w).v = s.v := rfl
@[simp] theorem State.setDt_i (s : State) (w : Byte) : (s.setDt w).i = s.i := rfl
@[simp] theorem State.setDt_pc (s : State) (w : Byte) : (s.setDt w).pc = s.pc := rfl
@[simp] theorem State.setDt_sp (s : State) (w : Byte) : (s.setDt w).sp = s.sp := rfl
@[simp] theorem State.setDt_stack (s : State) (w : Byte) : (s.setDt w).stack = s.stack := rfl
@[simp] theorem State.setDt_dt (s : State) (w : Byte) : (s.setDt w).dt = w := rfl
@[simp] theorem State.setDt_st (s : State) (w : Byte) : (s.setDt w).st = s.st := rfl
@[simp] theorem State.setDt_px (s : State) (w : Byte) : (s.setDt w).px = s.px := rfl
@[simp] theorem State.setDt_dirty (s : State) (w : Byte) : (s.setDt w).dirty = s.dirty := rfl
@[simp] theorem State.setDt_key (s : State) (w : Byte) : (s.setDt w).key = s.key := rfl
@[simp] theorem State.setDt_waiting (s : State) (w : Byte) : (s.setDt w).waiting = s.waiting := rfl
@[simp] theorem State.setDt_target (s : State) (w : Byte) : (s.setDt w).target = s.target := rfl
@[simp] theorem State.setDt_resume (s : State) (w : Byte) : (s.setDt w).resume = s.resume := rfl
@[simp] theorem State.setDt_draws (s : State) (w : Byte) : (s.setDt w).draws = s.draws := rfl
@[simp] theorem State.setDt_reg (s : State) (w : Byte) (r : RegIdx) : (s.setDt w).reg r = s.reg r := rfl
@[simp] theorem State.setDt_stackSlot (s : State) (w : Byte) (j : Nat) : (s.setDt w).stackSlot j = s.stackSlot j := rfl

/-! ### State.setSt -/

@[simp] theorem State.setSt_mem (s : State) (w : Byte) : (s.setSt w).mem = s.mem := rfl
@[simp] theorem State.setSt_v (s : State) (w : Byte) : (s.setSt w).v = s.v := rfl
@[simp] theorem State.setSt_i (s : State) (w : Byte) : (s.setSt w).i = s.i := rfl
@[simp] theorem State.setSt_pc (s : State) (w : Byte) : (s.setSt w).pc = s.pc := rfl
@[simp] theorem State.setSt_sp (s : State) (w : Byte) : (s.setSt w).sp = s.sp := rfl
@[simp] theorem State.setSt_stack (s : State) (w : Byte) : (s.setSt w).stack = s.stack := rfl
@[simp] theorem State.setSt_dt (s : State) (w : Byte) : (s.setSt w).dt = s.dt := rfl
@[simp] theorem State.setSt_st (s : State) (w : Byte) : (s.setSt w).st = w := rfl
@[simp] theorem State.setSt_px (s : State) (w : Byte) : (s.setSt w).px = s.px := rfl
@[simp] theorem State.setSt_dirty (s : State) (w : Byte) : (s.setSt w).dirty = s.dirty := rfl
@[simp] theorem State.setSt_key (s : State) (w : Byte) : (s.setSt w).key = s.key := rfl
@[simp] theorem State.setSt_waiting (s : State) (w : Byte) : (s.setSt w).waiting = s.waiting := rfl
@[simp] theorem State.setSt_target (s : State) (w : Byte) : (s.setSt w).target = s.target := rfl
@[simp] theorem State.setSt_resume (s : State) (w : Byte) : (s.setSt w).resume = s.resume := rfl
@[simp] theorem State.setSt_draws (s : State) (w : Byte) : (s.setSt w).draws = s.draws := rfl
@[simp] theorem State.setSt_reg (s : State) (w : Byte) (r : RegIdx) : (s.setSt w).reg r = s.reg r := rfl
@[simp] theorem State.setSt_stackSlot (s : State) (w : Byte) (j : Nat) : (s.setSt w).stackSlot j = s.stackSlot j := rfl

/-! ### State.setRegs -/

@[simp] theorem State.setRegs_mem (s : State) (r : RegFile) : (s.setRegs r).mem = s.mem := rfl
@[simp] theorem State.setRegs_v (s : State) (r : RegFile) : (s.setRegs r).v = r := rfl
@[simp] theorem State.setRegs_i (s : State) (r : RegFile) : (s.setRegs r).i = s.i := rfl
@[simp] theorem State.setRegs_pc (s : State) (r : RegFile) : (s.setRegs r).pc = s.pc := rfl
@[simp] theorem State.setRegs_sp (s : State) (r : RegFile) : (s.setRegs r).sp = s.sp := rfl
@[simp] theorem State.setRegs_stack (s : State) (r : RegFile) : (s.setRegs r).stack = s.stack := rfl
@[simp] theorem State.setRegs_dt (s : State) (r : RegFile) : (s.setRegs r).dt = s.dt := rfl
@[simp] theorem State.setRegs_st (s : State) (r : RegFile) : (s.setRegs r).st = s.st := rfl
@[simp] theorem State.setRegs_px (s : State) (r : RegFile) : (s.setRegs r).px = s.px := rfl
@[simp] theorem State.setRegs_dirty (s : State) (r : RegFile) : (s.setRegs r).dirty = s.dirty := rfl
@[simp] theorem State.setRegs_key (s : State) (r : RegFile) : (s.setRegs r).key = s.key := rfl
@[simp] theorem State.setRegs_waiting (s : State) (r : RegFile) : (s.setRegs r).waiting = s.waiting := rfl
@[simp] theorem State.setRegs_target (s : State) (r : RegFile) : (s.setRegs r).target = s.target := rfl
@[simp] theorem State.setRegs_resume (s : State) (r : RegFile) : (s.setRegs r).resume = s.resume := rfl
@[simp] theorem State.setRegs_draws (s : State) (r : RegFile) : (s.setRegs r).draws = s.draws := rfl
@[simp] theorem State.setRegs_stackSlot (s : State) (r : RegFile) (j : Nat) : (s.setRegs r).stackSlot j = s.stackSlot j := rfl

/-! ### State.setScreen -/

@[simp] theorem State.setScreen_mem (s : State) (p : Screen) : (s.setScreen p).mem = s.mem := rfl
@[simp] theorem State.setScreen_v (s : State) (p : Screen) : (s.setScreen p).v = s.v := rfl
@[simp] theorem State.setScreen_i (s : State) (p : Screen) : (s.setScreen p).i = s.i := rfl
@[simp] theorem State.setScreen_pc (s : State) (p : Screen) : (s.setScreen p).pc = s.pc := rfl
@[simp] theorem State.setScreen_sp (s : State) (p : Screen) : (s.setScreen p).sp = s.sp := rfl
@[simp] theorem State.setScreen_stack (s : State) (p : Screen) : (s.setScreen p).stack = s.stack := rfl
@[simp] theorem State.setScreen_dt (s : State) (p : Screen) : (s.setScreen p).dt = s.dt := rfl
@[simp] theorem State.setScreen_st (s : State) (p : Screen) : (s.setScreen p).st = s.st := rfl
@[simp] theorem State.setScreen_px (s : State) (p : Screen) : (s.setScreen p).px = p := rfl
@[simp] theorem State.setScreen_dirty (s : State) (p : Screen) : (s.setScreen p).dirty = true := rfl
@[simp] theorem State.setScreen_key (s : State) (p : Screen) : (s.setScreen p).key = s.key := rfl
@[simp] theorem State.setScreen_waiting (s : State) (p : Screen) : (s.setScreen p).waiting = s.waiting := rfl
@[simp] theorem State.setScreen_target (s : State) (p : Screen) : (s.setScreen p).target = s.target := rfl
@[simp] theorem State.setScreen_resume (s : State) (p : Screen) : (s.setScreen p).resume = s.resume := rfl
@[simp] theorem State.setScreen_draws (s : State) (p : Screen) : (s.setScreen p).draws = s.draws := rfl
@[simp] theorem State.setScreen_reg (s : State) (p : Screen) (r : RegIdx) : (s.setScreen p).reg r = s.reg r := rfl
@[simp] theorem State.setScreen_stackSlot (s : State) (p : Screen) (j : Nat) : (s.setScreen p).stackSlot j = s.stackSlot j := rfl

/-! ### State.enterWait -/

@[simp] theorem State.enterWait_mem (s : State) (x : RegIdx) : (s.enterWait x).mem = s.mem := rfl
@[simp] theorem State.enterWait_v (s : State) (x : RegIdx) : (s.enterWait x).v = s.v := rfl
@[simp] theorem State.enterWait_i (s : State) (x : RegIdx) : (s.enterWait x).i = s.i := rfl
@[simp] theorem State.enterWait_pc (s : State) (x : RegIdx) : (s.enterWait x).pc = s.pc := rfl
@[simp] theorem State.enterWait_sp (s : State) (x : RegIdx) : (s.enterWait x).sp = s.sp := rfl
@[simp] theorem State.enterWait_stack (s : State) (x : RegIdx) : (s.enterWait x).stack = s.stack := rfl
@[simp] theorem State.enterWait_dt (s : State) (x : RegIdx) : (s.enterWait x).dt = s.dt := rfl
@[simp] theorem State.enterWait_st (s : State) (x : RegIdx) : (s.enterWait x).st = s.st := rfl
@[simp] theorem State.enterWait_px (s : State) (x : RegIdx) : (s.enterWait x).px = s.px := rfl
@[simp] theorem State.enterWait_dirty (s : State) (x : RegIdx) : (s.enterWait x).dirty = s.dirty := rfl
@[simp] theorem State.enterWait_key (s : State) (x : RegIdx) : (s.enterWait x).key = s.key := rfl
@[simp] theorem State.enterWait_waiting (s : State) (x : RegIdx) : (s.enterWait x).waiting = true := rfl
@[simp] theorem State.enterWait_target (s : State) (x : RegIdx) : (s.enterWait x).target = x := rfl
@[simp] theorem State.enterWait_resume (s : State) (x : RegIdx) : (s.enterWait x).resume = s.resume := rfl
@[simp] theorem State.enterWait_draws (s : State) (x : RegIdx) : (s.enterWait x).draws = s.draws := rfl
@[simp] theorem State.enterWait_reg (s : State) (x : RegIdx) (r : RegIdx) : (s.enterWait x).reg r = s.reg r := rfl
@[simp] theorem State.enterWait_stackSlot (s : State) (x : RegIdx) (j : Nat) : (s.enterWait x).stackSlot j = s.stackSlot j := rfl

/-! ### State.completeWait -/

@[simp] theorem State.completeWait_mem (s : State) : s.completeWait.mem = s.mem := rfl
@[simp] theorem State.completeWait_v (s : State) : s.completeWait.v = s.v := rfl
@[simp] theorem State.completeWait_i (s : State) : s.completeWait.i = s.i := rfl
@[simp] theorem State.completeWait_pc (s : State) : s.completeWait.pc = s.pc + 2 := rfl
@[simp] theorem State.completeWait_sp (s : State) : s.completeWait.sp = s.sp := rfl
@[simp] theorem State.completeWait_stack (s : State) : s.completeWait.stack = s.stack := rfl
@[simp] theorem State.completeWait_dt (s : State) : s.completeWait.dt = s.dt := rfl
@[simp] theorem State.completeWait_st (s : State) : s.completeWait.st = s.st := rfl
@[simp] theorem State.completeWait_px (s : State) : s.completeWait.px = s.px := rfl
@[simp] theorem State.completeWait_dirty (s : State) : s.completeWait.dirty = s.dirty := rfl
@[simp] theorem State.completeWait_key (s : State) : s.completeWait.key = s.key := rfl
@[simp] theorem State.completeWait_waiting (s : State) : s.completeWait.waiting = s.waiting := rfl
@[simp] theorem State.completeWait_target (s : State) : s.completeWait.target = s.target := rfl
@[simp] theorem State.completeWait_resume (s : State) : s.completeWait.resume = false := rfl
@[simp] theorem State.completeWait_draws (s : State) : s.completeWait.draws = s.draws := rfl
@[simp] theorem State.completeWait_reg (s : State) (r : RegIdx) : s.completeWait.reg r = s.reg r := rfl
@[simp] theorem State.completeWait_stackSlot (s : State) (j : Nat) : s.completeWait.stackSlot j = s.stackSlot j := rfl

/-! ### State.leaveWait -/

@[simp] theorem State.leaveWait_mem (s : State) : s.leaveWait.mem = s.mem := rfl
@[simp] theorem State.leaveWait_v (s : State) : s.leaveWait.v = s.v := rfl
@[simp] theorem State.leaveWait_i (s : State) : s.leaveWait.i = s.i := rfl
@[simp] theorem State.leaveWait_pc (s : State) : s.leaveWait.pc = s.pc := rfl
@[simp] theorem State.leaveWait_sp (s : State) : s.leaveWait.sp = s.sp := rfl
@[simp] theorem State.leaveWait_stack (s : State) : s.leaveWait.stack = s.stack := rfl
@[simp] theorem State.leaveWait_dt (s : State) : s.leaveWait.dt = s.dt := rfl
@[simp] theorem State.leaveWait_st (s : State) : s.leaveWait.st = s.st := rfl
@[simp] theorem State.leaveWait_px (s : State) : s.leaveWait.px = s.px := rfl
@[simp] theorem State.leaveWait_dirty (s : State) : s.leaveWait.dirty = s.dirty := rfl
@[simp] theorem State.leaveWait_key (s : State) : s.leaveWait.key = s.key := rfl
@[simp] theorem State.leaveWait_waiting (s : State) : s.leaveWait.waiting = false := rfl
@[simp] theorem State.leaveWait_target (s : State) : s.leaveWait.target = if s.waiting then 0 else s.target := rfl
@[simp] theorem State.leaveWait_resume (s : State) : s.leaveWait.resume = false := rfl
@[simp] theorem State.leaveWait_draws (s : State) : s.leaveWait.draws = s.draws := rfl
@[simp] theorem State.leaveWait_reg (s : State) (r : RegIdx) : s.leaveWait.reg r = s.reg r := rfl
@[simp] theorem State.leaveWait_stackSlot (s : State) (j : Nat) : s.leaveWait.stackSlot j = s.stackSlot j := rfl

/-! ### State.placeFetch -/

@[simp] theorem State.placeFetch_mem (s : State) (w : Word) : (s.placeFetch w).mem = Memory.placeWord s.mem (fetchablePc s.pc).toNat w := rfl
@[simp] theorem State.placeFetch_v (s : State) (w : Word) : (s.placeFetch w).v = s.v := rfl
@[simp] theorem State.placeFetch_i (s : State) (w : Word) : (s.placeFetch w).i = s.i := rfl
@[simp] theorem State.placeFetch_pc (s : State) (w : Word) : (s.placeFetch w).pc = fetchablePc s.pc := rfl
@[simp] theorem State.placeFetch_sp (s : State) (w : Word) : (s.placeFetch w).sp = s.sp := rfl
@[simp] theorem State.placeFetch_stack (s : State) (w : Word) : (s.placeFetch w).stack = s.stack := rfl
@[simp] theorem State.placeFetch_dt (s : State) (w : Word) : (s.placeFetch w).dt = s.dt := rfl
@[simp] theorem State.placeFetch_st (s : State) (w : Word) : (s.placeFetch w).st = s.st := rfl
@[simp] theorem State.placeFetch_px (s : State) (w : Word) : (s.placeFetch w).px = s.px := rfl
@[simp] theorem State.placeFetch_dirty (s : State) (w : Word) : (s.placeFetch w).dirty = s.dirty := rfl
@[simp] theorem State.placeFetch_key (s : State) (w : Word) : (s.placeFetch w).key = s.key := rfl
@[simp] theorem State.placeFetch_waiting (s : State) (w : Word) : (s.placeFetch w).waiting = false := rfl
@[simp] theorem State.placeFetch_target (s : State) (w : Word) : (s.placeFetch w).target = if s.waiting then 0 else s.target := rfl
@[simp] theorem State.placeFetch_resume (s : State) (w : Word) : (s.placeFetch w).resume = false := rfl
@[simp] theorem State.placeFetch_draws (s : State) (w : Word) : (s.placeFetch w).draws = s.draws := rfl
@[simp] theorem State.placeFetch_reg (s : State) (w : Word) (r : RegIdx) : (s.placeFetch w).reg r = s.reg r := rfl
@[simp] theorem State.placeFetch_stackSlot (s : State) (w : Word) (j : Nat) : (s.placeFetch w).stackSlot j = s.stackSlot j := rfl

/-! ### State.setKey -/

@[simp] theorem State.setKey_mem (s : State) (k : KeyIdx) (c : Bool) : (s.setKey k c).mem = s.mem := rfl
@[simp] theorem State.setKey_v (s : State) (k : KeyIdx) (c : Bool) : (s.setKey k c).v = s.v := rfl
@[simp] theorem State.setKey_i (s : State) (k : KeyIdx) (c : Bool) : (s.setKey k c).i = s.i := rfl
@[simp] theorem State.setKey_pc (s : State) (k : KeyIdx) (c : Bool) : (s.setKey k c).pc = s.pc := rfl
@[simp] theorem State.setKey_sp (s : State) (k : KeyIdx) (c : Bool) : (s.setKey k c).sp = s.sp := rfl
@[simp] theorem State.setKey_stack (s : State) (k : KeyIdx) (c : Bool) : (s.setKey k c).stack = s.stack := rfl
@[simp] theorem State.setKey_dt (s : State) (k : KeyIdx) (c : Bool) : (s.setKey k c).dt = s.dt := rfl
@[simp] theorem State.setKey_st (s : State) (k : KeyIdx) (c : Bool) : (s.setKey k c).st = s.st := rfl
@[simp] theorem State.setKey_px (s : State) (k : KeyIdx) (c : Bool) : (s.setKey k c).px = s.px := rfl
@[simp] theorem State.setKey_dirty (s : State) (k : KeyIdx) (c : Bool) : (s.setKey k c).dirty = s.dirty := rfl
@[simp] theorem State.setKey_key (s : State) (k : KeyIdx) (c : Bool) : (s.setKey k c).key = s.key.set k.val c := rfl
@[simp] theorem State.setKey_waiting (s : State) (k : KeyIdx) (c : Bool) : (s.setKey k c).waiting = s.waiting := rfl
@[simp] theorem State.setKey_target (s : State) (k : KeyIdx) (c : Bool) : (s.setKey k c).target = s.target := rfl
@[simp] theorem State.setKey_resume (s : State) (k : KeyIdx) (c : Bool) : (s.setKey k c).resume = s.resume := rfl
@[simp] theorem State.setKey_draws (s : State) (k : KeyIdx) (c : Bool) : (s.setKey k c).draws = s.draws := rfl
@[simp] theorem State.setKey_reg (s : State) (k : KeyIdx) (c : Bool) (r : RegIdx) : (s.setKey k c).reg r = s.reg r := rfl
@[simp] theorem State.setKey_stackSlot (s : State) (k : KeyIdx) (c : Bool) (j : Nat) : (s.setKey k c).stackSlot j = s.stackSlot j := rfl

/-! ### State.resolveWait -/

@[simp] theorem State.resolveWait_mem (s : State) (k : KeyIdx) : (s.resolveWait k).mem = s.mem := rfl
@[simp] theorem State.resolveWait_v (s : State) (k : KeyIdx) : (s.resolveWait k).v = s.v.set s.target.val (BitVec.ofNat 8 k.val) := rfl
@[simp] theorem State.resolveWait_i (s : State) (k : KeyIdx) : (s.resolveWait k).i = s.i := rfl
@[simp] theorem State.resolveWait_pc (s : State) (k : KeyIdx) : (s.resolveWait k).pc = s.pc := rfl
@[simp] theorem State.resolveWait_sp (s : State) (k : KeyIdx) : (s.resolveWait k).sp = s.sp := rfl
@[simp] theorem State.resolveWait_stack (s : State) (k : KeyIdx) : (s.resolveWait k).stack = s.stack := rfl
@[simp] theorem State.resolveWait_dt (s : State) (k : KeyIdx) : (s.resolveWait k).dt = s.dt := rfl
@[simp] theorem State.resolveWait_st (s : State) (k : KeyIdx) : (s.resolveWait k).st = s.st := rfl
@[simp] theorem State.resolveWait_px (s : State) (k : KeyIdx) : (s.resolveWait k).px = s.px := rfl
@[simp] theorem State.resolveWait_dirty (s : State) (k : KeyIdx) : (s.resolveWait k).dirty = s.dirty := rfl
@[simp] theorem State.resolveWait_key (s : State) (k : KeyIdx) : (s.resolveWait k).key = s.key := rfl
@[simp] theorem State.resolveWait_waiting (s : State) (k : KeyIdx) : (s.resolveWait k).waiting = false := rfl
@[simp] theorem State.resolveWait_target (s : State) (k : KeyIdx) : (s.resolveWait k).target = 0 := rfl
@[simp] theorem State.resolveWait_resume (s : State) (k : KeyIdx) : (s.resolveWait k).resume = true := rfl
@[simp] theorem State.resolveWait_draws (s : State) (k : KeyIdx) : (s.resolveWait k).draws = s.draws := rfl
@[simp] theorem State.resolveWait_stackSlot (s : State) (k : KeyIdx) (j : Nat) : (s.resolveWait k).stackSlot j = s.stackSlot j := rfl

/-! ### tickTimers -/

@[simp] theorem tickTimers_mem (s : State) : (tickTimers s).mem = s.mem := rfl
@[simp] theorem tickTimers_v (s : State) : (tickTimers s).v = s.v := rfl
@[simp] theorem tickTimers_i (s : State) : (tickTimers s).i = s.i := rfl
@[simp] theorem tickTimers_pc (s : State) : (tickTimers s).pc = s.pc := rfl
@[simp] theorem tickTimers_sp (s : State) : (tickTimers s).sp = s.sp := rfl
@[simp] theorem tickTimers_stack (s : State) : (tickTimers s).stack = s.stack := rfl
@[simp] theorem tickTimers_dt (s : State) : (tickTimers s).dt = tickCounter s.dt := rfl
@[simp] theorem tickTimers_st (s : State) : (tickTimers s).st = tickCounter s.st := rfl
@[simp] theorem tickTimers_px (s : State) : (tickTimers s).px = s.px := rfl
@[simp] theorem tickTimers_dirty (s : State) : (tickTimers s).dirty = s.dirty := rfl
@[simp] theorem tickTimers_key (s : State) : (tickTimers s).key = s.key := rfl
@[simp] theorem tickTimers_waiting (s : State) : (tickTimers s).waiting = s.waiting := rfl
@[simp] theorem tickTimers_target (s : State) : (tickTimers s).target = s.target := rfl
@[simp] theorem tickTimers_resume (s : State) : (tickTimers s).resume = s.resume := rfl
@[simp] theorem tickTimers_draws (s : State) : (tickTimers s).draws = s.draws := rfl
@[simp] theorem tickTimers_reg (s : State) (r : RegIdx) : (tickTimers s).reg r = s.reg r := rfl
@[simp] theorem tickTimers_stackSlot (s : State) (j : Nat) : (tickTimers s).stackSlot j = s.stackSlot j := rfl

/-! ### clearDirty -/

@[simp] theorem clearDirty_mem (s : State) : (clearDirty s).mem = s.mem := rfl
@[simp] theorem clearDirty_v (s : State) : (clearDirty s).v = s.v := rfl
@[simp] theorem clearDirty_i (s : State) : (clearDirty s).i = s.i := rfl
@[simp] theorem clearDirty_pc (s : State) : (clearDirty s).pc = s.pc := rfl
@[simp] theorem clearDirty_sp (s : State) : (clearDirty s).sp = s.sp := rfl
@[simp] theorem clearDirty_stack (s : State) : (clearDirty s).stack = s.stack := rfl
@[simp] theorem clearDirty_dt (s : State) : (clearDirty s).dt = s.dt := rfl
@[simp] theorem clearDirty_st (s : State) : (clearDirty s).st = s.st := rfl
@[simp] theorem clearDirty_px (s : State) : (clearDirty s).px = s.px := rfl
@[simp] theorem clearDirty_dirty (s : State) : (clearDirty s).dirty = false := rfl
@[simp] theorem clearDirty_key (s : State) : (clearDirty s).key = s.key := rfl
@[simp] theorem clearDirty_waiting (s : State) : (clearDirty s).waiting = s.waiting := rfl
@[simp] theorem clearDirty_target (s : State) : (clearDirty s).target = s.target := rfl
@[simp] theorem clearDirty_resume (s : State) : (clearDirty s).resume = s.resume := rfl
@[simp] theorem clearDirty_draws (s : State) : (clearDirty s).draws = s.draws := rfl
@[simp] theorem clearDirty_reg (s : State) (r : RegIdx) : (clearDirty s).reg r = s.reg r := rfl
@[simp] theorem clearDirty_stackSlot (s : State) (j : Nat) : (clearDirty s).stackSlot j = s.stackSlot j := rfl

/-! ### State.pushSlot -/

@[simp] theorem State.pushSlot_mem (s : State) (w : Word) : (s.pushSlot w).mem = s.mem := rfl
@[simp] theorem State.pushSlot_v (s : State) (w : Word) : (s.pushSlot w).v = s.v := rfl
@[simp] theorem State.pushSlot_i (s : State) (w : Word) : (s.pushSlot w).i = s.i := rfl
@[simp] theorem State.pushSlot_pc (s : State) (w : Word) : (s.pushSlot w).pc = s.pc := rfl
@[simp] theorem State.pushSlot_sp (s : State) (w : Word) : (s.pushSlot w).sp = s.sp + 1 := rfl
@[simp] theorem State.pushSlot_stack (s : State) (w : Word) : (s.pushSlot w).stack = s.stack.setIfInBounds s.sp w := rfl
@[simp] theorem State.pushSlot_dt (s : State) (w : Word) : (s.pushSlot w).dt = s.dt := rfl
@[simp] theorem State.pushSlot_st (s : State) (w : Word) : (s.pushSlot w).st = s.st := rfl
@[simp] theorem State.pushSlot_px (s : State) (w : Word) : (s.pushSlot w).px = s.px := rfl
@[simp] theorem State.pushSlot_dirty (s : State) (w : Word) : (s.pushSlot w).dirty = s.dirty := rfl
@[simp] theorem State.pushSlot_key (s : State) (w : Word) : (s.pushSlot w).key = s.key := rfl
@[simp] theorem State.pushSlot_waiting (s : State) (w : Word) : (s.pushSlot w).waiting = s.waiting := rfl
@[simp] theorem State.pushSlot_target (s : State) (w : Word) : (s.pushSlot w).target = s.target := rfl
@[simp] theorem State.pushSlot_resume (s : State) (w : Word) : (s.pushSlot w).resume = s.resume := rfl
@[simp] theorem State.pushSlot_draws (s : State) (w : Word) : (s.pushSlot w).draws = s.draws := rfl
@[simp] theorem State.pushSlot_reg (s : State) (w : Word) (r : RegIdx) : (s.pushSlot w).reg r = s.reg r := rfl

/-! ### State.setSp -/

@[simp] theorem State.setSp_mem (s : State) (k : Nat) : (s.setSp k).mem = s.mem := rfl
@[simp] theorem State.setSp_v (s : State) (k : Nat) : (s.setSp k).v = s.v := rfl
@[simp] theorem State.setSp_i (s : State) (k : Nat) : (s.setSp k).i = s.i := rfl
@[simp] theorem State.setSp_pc (s : State) (k : Nat) : (s.setSp k).pc = s.pc := rfl
@[simp] theorem State.setSp_sp (s : State) (k : Nat) : (s.setSp k).sp = k := rfl
@[simp] theorem State.setSp_stack (s : State) (k : Nat) : (s.setSp k).stack = s.stack := rfl
@[simp] theorem State.setSp_dt (s : State) (k : Nat) : (s.setSp k).dt = s.dt := rfl
@[simp] theorem State.setSp_st (s : State) (k : Nat) : (s.setSp k).st = s.st := rfl
@[simp] theorem State.setSp_px (s : State) (k : Nat) : (s.setSp k).px = s.px := rfl
@[simp] theorem State.setSp_dirty (s : State) (k : Nat) : (s.setSp k).dirty = s.dirty := rfl
@[simp] theorem State.setSp_key (s : State) (k : Nat) : (s.setSp k).key = s.key := rfl
@[simp] theorem State.setSp_waiting (s : State) (k : Nat) : (s.setSp k).waiting = s.waiting := rfl
@[simp] theorem State.setSp_target (s : State) (k : Nat) : (s.setSp k).target = s.target := rfl
@[simp] theorem State.setSp_resume (s : State) (k : Nat) : (s.setSp k).resume = s.resume := rfl
@[simp] theorem State.setSp_draws (s : State) (k : Nat) : (s.setSp k).draws = s.draws := rfl
@[simp] theorem State.setSp_reg (s : State) (k : Nat) (r : RegIdx) : (s.setSp k).reg r = s.reg r := rfl
@[simp] theorem State.setSp_stackSlot (s : State) (k : Nat) (j : Nat) : (s.setSp k).stackSlot j = s.stackSlot j := rfl

/-! ### drawRandom -/

@[simp] theorem drawRandom_mem (s : State) : (drawRandom s).2.mem = s.mem := rfl
@[simp] theorem drawRandom_v (s : State) : (drawRandom s).2.v = s.v := rfl
@[simp] theorem drawRandom_i (s : State) : (drawRandom s).2.i = s.i := rfl
@[simp] theorem drawRandom_pc (s : State) : (drawRandom s).2.pc = s.pc := rfl
@[simp] theorem drawRandom_sp (s : State) : (drawRandom s).2.sp = s.sp := rfl
@[simp] theorem drawRandom_stack (s : State) : (drawRandom s).2.stack = s.stack := rfl
@[simp] theorem drawRandom_dt (s : State) : (drawRandom s).2.dt = s.dt := rfl
@[simp] theorem drawRandom_st (s : State) : (drawRandom s).2.st = s.st := rfl
@[simp] theorem drawRandom_px (s : State) : (drawRandom s).2.px = s.px := rfl
@[simp] theorem drawRandom_dirty (s : State) : (drawRandom s).2.dirty = s.dirty := rfl
@[simp] theorem drawRandom_key (s : State) : (drawRandom s).2.key = s.key := rfl
@[simp] theorem drawRandom_waiting (s : State) : (drawRandom s).2.waiting = s.waiting := rfl
@[simp] theorem drawRandom_target (s : State) : (drawRandom s).2.target = s.target := rfl
@[simp] theorem drawRandom_resume (s : State) : (drawRandom s).2.resume = s.resume := rfl
@[simp] theorem drawRandom_draws (s : State) : (drawRandom s).2.draws = s.draws + 1 := rfl
@[simp] theorem drawRandom_reg (s : State) (r : RegIdx) : (drawRandom s).2.reg r = s.reg r := rfl
@[simp] theorem drawRandom_stackSlot (s : State) (j : Nat) : (drawRandom s).2.stackSlot j = s.stackSlot j := rfl

/-! ### State.skipIf: one of `advance` and `skipNext` -/

@[simp] theorem State.skipIf_mem (s : State) (c : Bool) : (s.skipIf c).mem = s.mem := by cases c <;> rfl
@[simp] theorem State.skipIf_v (s : State) (c : Bool) : (s.skipIf c).v = s.v := by cases c <;> rfl
@[simp] theorem State.skipIf_i (s : State) (c : Bool) : (s.skipIf c).i = s.i := by cases c <;> rfl
@[simp] theorem State.skipIf_pc (s : State) (c : Bool) : (s.skipIf c).pc = if c then s.pc + 4 else s.pc + 2 := by
  cases c <;> rfl
@[simp] theorem State.skipIf_sp (s : State) (c : Bool) : (s.skipIf c).sp = s.sp := by cases c <;> rfl
@[simp] theorem State.skipIf_stack (s : State) (c : Bool) : (s.skipIf c).stack = s.stack := by cases c <;> rfl
@[simp] theorem State.skipIf_dt (s : State) (c : Bool) : (s.skipIf c).dt = s.dt := by cases c <;> rfl
@[simp] theorem State.skipIf_st (s : State) (c : Bool) : (s.skipIf c).st = s.st := by cases c <;> rfl
@[simp] theorem State.skipIf_px (s : State) (c : Bool) : (s.skipIf c).px = s.px := by cases c <;> rfl
@[simp] theorem State.skipIf_dirty (s : State) (c : Bool) : (s.skipIf c).dirty = s.dirty := by cases c <;> rfl
@[simp] theorem State.skipIf_key (s : State) (c : Bool) : (s.skipIf c).key = s.key := by cases c <;> rfl
@[simp] theorem State.skipIf_waiting (s : State) (c : Bool) : (s.skipIf c).waiting = s.waiting := by cases c <;> rfl
@[simp] theorem State.skipIf_target (s : State) (c : Bool) : (s.skipIf c).target = s.target := by cases c <;> rfl
@[simp] theorem State.skipIf_resume (s : State) (c : Bool) : (s.skipIf c).resume = s.resume := by cases c <;> rfl
@[simp] theorem State.skipIf_draws (s : State) (c : Bool) : (s.skipIf c).draws = s.draws := by cases c <;> rfl
@[simp] theorem State.skipIf_reg (s : State) (c : Bool) (r : RegIdx) : (s.skipIf c).reg r = s.reg r := by cases c <;> rfl
@[simp] theorem State.skipIf_stackSlot (s : State) (c : Bool) (j : Nat) : (s.skipIf c).stackSlot j = s.stackSlot j := by
  cases c <;> rfl

/-! ### Register reads over the register writes -/

/-- R20: a register write changes that register alone. -/
@[simp] theorem State.setReg_reg (s : State) (x : RegIdx) (w : Byte) (r : RegIdx) :
    (s.setReg x w).reg r = if r = x then w else s.reg r := by
  simp only [State.reg, State.setReg, Vector.getElem_set]
  by_cases h : r = x
  · simp [h]
  · have : x.val ≠ r.val := fun e => h (Fin.ext e.symm)
    simp [h, this]

/-- R22: a flag write changes VF alone. -/
@[simp] theorem State.setFlag_reg (s : State) (c : Bool) (r : RegIdx) :
    (s.setFlag c).reg r = if r = VF then flagByte c else s.reg r := State.setReg_reg ..

/-- R147: the flag is written last, so it stays in VF whatever the destination. -/
@[simp] theorem State.setRegFlag_reg (s : State) (x : RegIdx) (w : Byte) (c : Bool) (r : RegIdx) :
    (s.setRegFlag x w c).reg r = if r = VF then flagByte c else if r = x then w else s.reg r := by
  simp [State.setRegFlag]

/-- R247: the key's value lands in the target register alone. -/
@[simp] theorem State.resolveWait_reg (s : State) (k : KeyIdx) (r : RegIdx) :
    (s.resolveWait k).reg r = if r = s.target then BitVec.ofNat 8 k.val else s.reg r := State.setReg_reg ..

/-- R35: a key write changes that key alone. -/
@[simp] theorem State.setKey_keyDownNow (s : State) (k : KeyIdx) (c : Bool) (j : KeyIdx) :
    (s.setKey k c).keyDownNow j = if j = k then c else s.keyDownNow j := by
  simp only [State.keyDownNow, State.setKey, Vector.getElem_set]
  by_cases h : j = k
  · simp [h]
  · have : k.val ≠ j.val := fun e => h (Fin.ext e.symm)
    simp [h, this]

/-- The width of PC as a bound on its value (R24). -/
theorem State.pc_lt (s : State) : s.pc.toNat < 65536 := s.pc.isLt

/-- The width of I as a bound on its value (R23). -/
theorem State.i_lt (s : State) : s.i.toNat < 65536 := s.i.isLt

/-- The width of the delay timer as a bound on its value (R32). -/
theorem State.dt_lt (s : State) : s.dt.toNat < 256 := s.dt.isLt

/-- The width of the sound timer as a bound on its value (R32). -/
theorem State.st_lt (s : State) : s.st.toNat < 256 := s.st.isLt

/-- Two states with the same register reads have the same register file. -/
theorem State.v_eq_of_reg_eq {s t : State} (h : ∀ r, t.reg r = s.reg r) : t.v = s.v := by
  apply Vector.ext
  intro k hk
  exact h ⟨k, hk⟩

end Sys2Proof.Machine
end

