-- ==== Sys2Proof/Laws/Operands.lean ====
section
/-! SUPPORT. What each operand form answers: literals, addresses, the key index, the register block. -/

namespace Sys2Proof.Machine

/-- R73: a literal is zero-extended. -/
@[simp] theorem literalAddr_toNat (nnn : Addr12) : (literalAddr nnn).toNat = nnn.toNat := by
  have := nnn.isLt
  simp only [literalAddr, BitVec.toNat_setWidth]
  omega

/-- R128, R172: a register's byte is zero-extended. -/
@[simp] theorem byteAsWord_toNat (w : Byte) : (byteAsWord w).toNat = w.toNat := by
  have := w.isLt
  simp only [byteAsWord, BitVec.toNat_setWidth]
  omega

/-- R128: the jump target of JP V0 is the exact sum: it never wraps. -/
theorem jumpOffset_toNat (nnn : Addr12) (w : Byte) : (literalAddr nnn + byteAsWord w).toNat = nnn.toNat + w.toNat := by
  have h1 := nnn.isLt
  have h2 := w.isLt
  rw [BitVec.toNat_add, literalAddr_toNat, byteAsWord_toNat]
  omega

/-- R173: the glyph of digit d is at FONT_BASE + 5·d, exactly. -/
theorem glyphAddr_toNat {d : Nat} (h : d ≤ 0xF) : (glyphAddr d).toNat = config.fontBase + 5 * d := by
  have h1 := config_font_below_program
  have h2 : Config.fontSize = 80 := rfl
  simp only [glyphAddr, BitVec.toNat_ofNat]
  omega

/-- What the key index answers (R215). -/
theorem keyIndex_eq_next {w : Byte} {k : KeyIdx} : keyIndex w = .next k ↔ w.toNat = k.val := by
  unfold keyIndex
  split
  · rename_i h
    simp only [Host.Outcome.next.injEq, Fin.ext_iff]
  · rename_i h
    have := k.isLt
    simp only [numKeysValue] at h
    simp only [reduceCtorEq, false_iff]
    omega

/-- R215: a register value above 15 names no key. -/
theorem keyIndex_refused {w : Byte} (h : 15 < w.toNat) : keyIndex w = .refused (.keyIndexOutOfRange w) := by
  rw [keyIndex, dif_neg (show ¬ w.toNat < 16 by omega)]

/-- The register block of FX55 has x + 1 bytes (R176). -/
@[simp] theorem State.regsUpTo_length (s : State) (x : RegIdx) : (s.regsUpTo x).length = x.val + 1 := by
  have := x.isLt
  simp only [State.regsUpTo, List.length_take, Vector.length_toList, numVValue]
  omega

/-- The register block of FX55 holds V0 to Vx in order (R176). -/
theorem State.regsUpTo_getD (s : State) (x r : RegIdx) (h : r ≤ x) : (s.regsUpTo x).getD r.val 0 = s.reg r := by
  have hr : r.val < x.val + 1 := Nat.lt_succ_of_le h
  simp [State.regsUpTo, State.reg, List.getD_eq_getElem?_getD, hr]

/-- The register block of FX65: the bytes go to the registers from `i` up, in order, every other register is as before
(R177). -/
theorem putRegs_getElem (bs : List Byte) : ∀ (v : RegFile) (i r : Nat) (hr : r < numVValue),
    (putRegs v i bs)[r] = if i ≤ r ∧ r < i + bs.length then bs.getD (r - i) 0 else v[r] := by
  induction bs with
  | nil =>
    intro v i r hr
    rw [if_neg (by simp only [List.length_nil]; omega), putRegs]
  | cons b bs ih =>
    intro v i r hr
    rw [putRegs, ih, Vector.getElem_setIfInBounds]
    simp only [List.length_cons]
    by_cases h : i = r
    · subst h
      rw [if_neg (by omega), if_pos rfl, if_pos (by omega)]
      simp
    · rw [if_neg h]
      by_cases h2 : i ≤ r ∧ r < i + (bs.length + 1)
      · rw [if_pos h2, if_pos (by omega), show r - i = (r - (i + 1)) + 1 by omega]
        simp
      · rw [if_neg h2, if_neg (by omega)]

/-- R177, through the register reads. -/
theorem State.setRegs_putRegs_reg (s : State) (bs : List Byte) (r : RegIdx) :
    (s.setRegs (putRegs s.v 0 bs)).reg r = if r.val < bs.length then bs.getD r.val 0 else s.reg r := by
  show (putRegs s.v 0 bs)[r.val] = _
  rw [putRegs_getElem]
  simp [State.reg]

end Sys2Proof.Machine
end

