-- ==== Sys2Proof/Laws/Display.lean ====
section
/-! SUPPORT. What the pixel operations do, one pixel at a time (spec/44_display.md R192). -/

namespace Sys2Proof.Machine

/-- The blank display has every pixel 0 (R190). -/
@[simp] theorem Screen.blank_pixel (row : Row) (col : Col) : Screen.blank.pixel row col = false := by
  simp [Screen.pixel, Screen.blank]

/-- A pixel write changes that pixel alone. -/
@[simp] theorem Screen.setPixel_pixel (p : Screen) (row r : Row) (col c : Col) (b : Bool) :
    (p.setPixel row col b).pixel r c = if r = row ∧ c = col then b else p.pixel r c := by
  simp only [Screen.pixel, Screen.setPixel, Vector.getElem_set]
  by_cases hr : row.val = r.val
  · by_cases hc : col.val = c.val
    · have h1 : r = row := Fin.ext hr.symm
      have h2 : c = col := Fin.ext hc.symm
      simp [h1, h2]
    · have h2 : c ≠ col := fun e => hc (e ▸ rfl)
      simp [hr, hc, h2]
  · have h1 : r ≠ row := fun e => hr (e ▸ rfl)
    simp [hr, h1]

/-- Two displays with the same pixels are the same. -/
theorem Screen.eq_of_pixel_eq {p q : Screen} (h : ∀ row col, p.pixel row col = q.pixel row col) : p = q := by
  apply Vector.ext
  intro r hr
  apply Vector.ext
  intro c hc
  exact h ⟨r, hr⟩ ⟨c, hc⟩

/-- R192: one sprite bit inverts its pixel where it is 1, and changes nothing else. -/
theorem drawPixel_pixel (row r : Row) (col c : Col) (bit : Bool) (d : Canvas) :
    (drawPixel row col bit d).px.pixel r c = ((r = row ∧ c = col ∧ bit = true) ^^ d.px.pixel r c) := by
  cases bit
  · simp [drawPixel]
  · by_cases h : r = row ∧ c = col
    · obtain ⟨rfl, rfl⟩ := h; simp [drawPixel]
    · simp [drawPixel, h]

/-- R192: one sprite bit notes a collision where it is 1 on a pixel that is 1. -/
theorem drawPixel_collision (row : Row) (col : Col) (bit : Bool) (d : Canvas) :
    (drawPixel row col bit d).collision = (d.collision || (bit && d.px.pixel row col)) := by
  cases bit <;> simp [drawPixel]

/-- R192: a row coordinate wraps modulo 32. -/
theorem wrapRow_val (v : Nat) : (wrapRow v).val = v % 32 := rfl

/-- R192: a column coordinate wraps modulo 64. -/
theorem wrapCol_val (v : Nat) : (wrapCol v).val = v % 64 := rfl

/-- The column of offset b determines b, for the eight offsets of a row (R193). -/
theorem wrapCol_inj {cx b b' : Nat} (hb : b < 8) (hb' : b' < 8) (h : wrapCol (cx + b) = wrapCol (cx + b')) : b = b' := by
  have := congrArg Fin.val h
  simp only [wrapCol_val] at this
  omega

/-- The row of offset r determines r, below 32 rows (R193). -/
theorem wrapRow_inj {cy r r' : Nat} (hr : r < 32) (hr' : r' < 32) (h : wrapRow (cy + r) = wrapRow (cy + r')) : r = r' := by
  have := congrArg Fin.val h
  simp only [wrapRow_val] at this
  omega

/-- A sprite row's pixel at column offset b is column `(cx + b) mod 64` (R192): the eight offsets as one disjunction. -/
def rowCovers (cx : Nat) (byte : Byte) (col : Col) : Prop :=
  ∃ b, b < 8 ∧ col = wrapCol (cx + b) ∧ spriteBit byte b = true

/-- Drawing a list of distinct column offsets of one row: each covered pixel of the row is inverted, a collision is noted
exactly where a covered pixel was 1. -/
theorem drawOffsets (row : Row) (cx : Nat) (byte : Byte) : ∀ (bs : List Nat) (d : Canvas), bs.Nodup → (∀ b ∈ bs, b < 8) →
    (∀ r c, (bs.foldl (fun c b => drawPixel row (wrapCol (cx + b)) (spriteBit byte b) c) d).px.pixel r c = true ↔
      ((r = row ∧ ∃ b ∈ bs, c = wrapCol (cx + b) ∧ spriteBit byte b = true) ↔ d.px.pixel r c = false)) ∧
    ((bs.foldl (fun c b => drawPixel row (wrapCol (cx + b)) (spriteBit byte b) c) d).collision = true ↔
      d.collision = true ∨ ∃ b ∈ bs, spriteBit byte b = true ∧ d.px.pixel row (wrapCol (cx + b)) = true) := by
  intro bs
  induction bs with
  | nil => intro d _ _; simp
  | cons b bs ih =>
    intro d hn hb
    rw [List.nodup_cons] at hn
    obtain ⟨h1, h2⟩ := ih (drawPixel row (wrapCol (cx + b)) (spriteBit byte b) d) hn.2 fun k hk => hb k (by simp [hk])
    have hne : ∀ b' ∈ bs, wrapCol (cx + b') ≠ wrapCol (cx + b) := by
      intro b' hb' e
      exact hn.1 (wrapCol_inj (hb b' (by simp [hb'])) (hb b (by simp)) e ▸ hb')
    refine ⟨fun r c => ?_, ?_⟩
    · rw [List.foldl_cons, h1, drawPixel_pixel]
      by_cases hc : r = row ∧ c = wrapCol (cx + b)
      · obtain ⟨rfl, rfl⟩ := hc
        have hno : ¬ ∃ b' ∈ bs, wrapCol (cx + b) = wrapCol (cx + b') ∧ spriteBit byte b' = true := by
          rintro ⟨b', hb', e, _⟩; exact hne b' hb' e.symm
        cases hs : spriteBit byte b <;> cases hp : d.px.pixel r (wrapCol (cx + b)) <;> simp_all
      · have : ¬ (r = row ∧ c = wrapCol (cx + b) ∧ spriteBit byte b = true) := fun e => hc ⟨e.1, e.2.1⟩
        have e2 : (r = row ∧ ∃ b' ∈ b :: bs, c = wrapCol (cx + b') ∧ spriteBit byte b' = true) ↔
            (r = row ∧ ∃ b' ∈ bs, c = wrapCol (cx + b') ∧ spriteBit byte b' = true) := by
          simp only [List.mem_cons, exists_eq_or_imp]
          constructor
          · rintro ⟨hr, ⟨hw, hs⟩ | h⟩
            · exact absurd ⟨hr, hw⟩ hc
            · exact ⟨hr, h⟩
          · rintro ⟨hr, h⟩; exact ⟨hr, .inr h⟩
        rw [e2]
        simp [this]
    · rw [List.foldl_cons, h2, drawPixel_collision]
      have hpx : ∀ b' ∈ bs, (drawPixel row (wrapCol (cx + b)) (spriteBit byte b) d).px.pixel row (wrapCol (cx + b')) =
          d.px.pixel row (wrapCol (cx + b')) := by
        intro b' hb'
        rw [drawPixel_pixel]; simp [hne b' hb']
      simp only [Bool.or_eq_true, Bool.and_eq_true, List.mem_cons, exists_eq_or_imp, or_assoc]
      refine or_congr_right (or_congr_right (exists_congr fun b' => and_congr_right fun hb' => ?_))
      rw [hpx b' hb']

/-- R192, one row: the covered pixels are inverted, a collision is a covered pixel that was 1. -/
theorem drawRow_spec (row : Row) (cx : Nat) (byte : Byte) (d : Canvas) :
    (∀ r c, (drawRow row cx byte d).px.pixel r c = true ↔ ((r = row ∧ rowCovers cx byte c) ↔ d.px.pixel r c = false)) ∧
    ((drawRow row cx byte d).collision = true ↔
      d.collision = true ∨ ∃ c, rowCovers cx byte c ∧ d.px.pixel row c = true) := by
  have hmem : ∀ b, b ∈ [0, 1, 2, 3, 4, 5, 6, 7] ↔ b < 8 := by intro b; simp; omega
  obtain ⟨h1, h2⟩ := drawOffsets row cx byte [0, 1, 2, 3, 4, 5, 6, 7] d (by decide) fun b hb => (hmem b).1 hb
  refine ⟨fun r c => ?_, ?_⟩
  · rw [drawRow, h1]
    simp only [hmem, rowCovers]
  · rw [drawRow, h2]
    simp only [hmem, rowCovers]
    refine or_congr_right ⟨?_, ?_⟩
    · rintro ⟨b, hb, hs, hp⟩; exact ⟨_, ⟨b, hb, rfl, hs⟩, hp⟩
    · rintro ⟨_, ⟨b, hb, rfl, hs⟩, hp⟩; exact ⟨b, hb, hs, hp⟩

/-- The sprite drawn from row offset `r0` on covers the pixel (R192). -/
def rowsCover (cx cy r0 : Nat) (rows : List Byte) (row : Row) (col : Col) : Prop :=
  ∃ k, k < rows.length ∧ row = wrapRow (cy + (r0 + k)) ∧ rowCovers cx (rows.getD k 0) col

/-- R192, the whole sprite of at most 32 rows: the covered pixels are inverted, every other pixel is as before, and the
collision is a covered pixel that was 1. -/
theorem drawRows_spec (cx cy : Nat) (rows : List Byte) : ∀ (r0 : Nat) (d : Canvas), r0 + rows.length ≤ 32 →
    (∀ r c, (drawRows cx cy r0 rows d).px.pixel r c = true ↔ (rowsCover cx cy r0 rows r c ↔ d.px.pixel r c = false)) ∧
    ((drawRows cx cy r0 rows d).collision = true ↔
      d.collision = true ∨ ∃ r c, rowsCover cx cy r0 rows r c ∧ d.px.pixel r c = true) := by
  induction rows with
  | nil => intro r0 d _; simp [drawRows, rowsCover]
  | cons byte rows ih =>
    intro r0 d hlen
    simp only [List.length_cons] at hlen
    obtain ⟨h1, h2⟩ := drawRow_spec (wrapRow (cy + r0)) cx byte d
    obtain ⟨i1, i2⟩ := ih (r0 + 1) (drawRow (wrapRow (cy + r0)) cx byte d) (by omega)
    have hcons : ∀ r c, rowsCover cx cy r0 (byte :: rows) r c ↔
        (r = wrapRow (cy + r0) ∧ rowCovers cx byte c) ∨ rowsCover cx cy (r0 + 1) rows r c := by
      intro r c
      constructor
      · rintro ⟨k, hk, hr, hc⟩
        rcases k with _ | k
        · exact .inl ⟨hr, by simpa using hc⟩
        · exact .inr ⟨k, by simpa using hk, by rw [hr]; congr 1; omega, by simpa using hc⟩
      · rintro (⟨hr, hc⟩ | ⟨k, hk, hr, hc⟩)
        · exact ⟨0, by simp, hr, by simpa using hc⟩
        · exact ⟨k + 1, by simpa using hk, by rw [hr]; congr 1; omega, by simpa using hc⟩
    have hdisj : ∀ r c, rowsCover cx cy (r0 + 1) rows r c → r ≠ wrapRow (cy + r0) := by
      rintro r c ⟨k, hk, hr, -⟩ e
      have := wrapRow_inj (by omega) (by omega) (hr.symm.trans e)
      omega
    refine ⟨fun r c => ?_, ?_⟩
    · rw [drawRows, i1, hcons]
      have hf : (drawRow (wrapRow (cy + r0)) cx byte d).px.pixel r c = false ↔
          ¬ ((r = wrapRow (cy + r0) ∧ rowCovers cx byte c) ↔ d.px.pixel r c = false) := by
        rw [← h1, Bool.not_eq_true]
      rw [hf]
      have := hdisj r c
      cases hp : d.px.pixel r c <;> by_cases ha : rowsCover cx cy (r0 + 1) rows r c <;>
        by_cases hb : r = wrapRow (cy + r0) ∧ rowCovers cx byte c <;> simp_all
    · rw [drawRows, i2, h2]
      have hsame : ∀ r c, rowsCover cx cy (r0 + 1) rows r c →
          ((drawRow (wrapRow (cy + r0)) cx byte d).px.pixel r c = true ↔ d.px.pixel r c = true) := by
        intro r c hrc
        rw [h1]
        have := hdisj r c hrc
        simp [this]
      constructor
      · rintro ((h | ⟨c, hc, hp⟩) | ⟨r, c, hrc, hp⟩)
        · exact .inl h
        · exact .inr ⟨_, c, (hcons _ _).2 (.inl ⟨rfl, hc⟩), hp⟩
        · exact .inr ⟨r, c, (hcons _ _).2 (.inr hrc), (hsame r c hrc).1 hp⟩
      · rintro (h | ⟨r, c, hrc, hp⟩)
        · exact .inl (.inl h)
        · rcases (hcons _ _).1 hrc with ⟨rfl, hc⟩ | hrc
          · exact .inl (.inr ⟨c, hc, hp⟩)
          · exact .inr ⟨r, c, hrc, (hsame r c hrc).2 hp⟩

end Sys2Proof.Machine
end

