-- ==== Sys2Proof/Laws/Flags.lean ====
section
/-! SUPPORT. The flag and result computations as arithmetic on the operands' values (spec/42_alu.md R146, R148). -/

namespace Sys2Proof.Machine

/-- A flag is 1 or 0. -/
theorem flagByte_toNat (c : Bool) : (flagByte c).toNat = if c then 1 else 0 := by cases c <;> rfl

/-- R150: the sum modulo 256. -/
theorem sumByte_toNat (a b : Byte) : (sumByte a b).toNat = (a.toNat + b.toNat) % 256 := by
  simp [sumByte, sumExact]

/-- R150: the carry. -/
theorem carry_eq_true {a b : Byte} : carry a b = true ↔ 255 < a.toNat + b.toNat := by
  simp [carry, sumExact]

/-- R151: the difference modulo 256. -/
theorem diffByte_toNat (a b : Byte) : ((diffByte a b).toNat : Int) = ((a.toNat : Int) - b.toNat) % 256 := by
  simp only [diffByte, BitVec.toNat_ofInt]
  omega

/-- R148: no borrow. -/
theorem noBorrow_eq_true {a b : Byte} : noBorrow a b = true ↔ b.toNat ≤ a.toNat := by
  simp [noBorrow]

/-- R152: the bit shifted out to the right is the operand's parity. -/
theorem shiftedOutRight_eq_true {a : Byte} : shiftedOutRight a = true ↔ a.toNat % 2 = 1 := by
  simp [shiftedOutRight, BitVec.getLsbD, Nat.testBit_zero]

/-- R154: the bit shifted out to the left is set from 128 up. -/
theorem shiftedOutLeft_eq_true {a : Byte} : shiftedOutLeft a = true ↔ 128 ≤ a.toNat := by
  have := a.isLt
  simp only [shiftedOutLeft, BitVec.getLsbD, Nat.testBit_eq_decide_div_mod_eq, decide_eq_true_eq]
  omega

/-- R152: the right shift halves. -/
theorem shiftRight_toNat (a : Byte) : (a >>> 1).toNat = a.toNat / 2 := by
  simp [Nat.shiftRight_eq_div_pow]

/-- R154: the left shift doubles modulo 256. -/
theorem shiftLeft_toNat (a : Byte) : (a <<< 1).toNat = a.toNat * 2 % 256 := by
  simp [Nat.shiftLeft_eq]

end Sys2Proof.Machine
end

