-- ==== Sys2Proof/Laws/Step.lean ====
section
/-! SUPPORT. What one step can do (spec/40_step_cycle.md R100), said once: the three ways a step succeeds, and where the step
stands in each case of the cycle. -/

namespace Sys2Proof.Machine

/-- R101: a step in a wait. -/
theorem step_waiting {s : State} (h : s.waiting = true) : step s = .next s := by
  simp [step, stepReport, dropReport, h]

/-- R104: the step after a resolved wait. -/
theorem step_resume {s : State} (hw : s.waiting = false) (hr : s.resume = true) : step s = .next s.completeWait := by
  simp [step, stepReport, dropReport, hw, hr]

/-- R100: a step that neither waits nor resumes runs the fetched word. -/
theorem step_fetching {s : State} (hw : s.waiting = false) (hr : s.resume = false) :
    step s = thenDo (fetch s) fun w => dropReport (runWord w s) := by
  simp only [step, stepReport, dropReport, hw, hr, Bool.false_eq_true, if_false]
  cases fetch s <;> rfl

/-- R103, R105: running a word that decodes. -/
theorem dropReport_runWord_ok {w : Word} {i : Instr} (h : decodeWord w = .ok i) (s : State) :
    dropReport (runWord w s) = exec i s := by
  simp only [dropReport, runWord, h, execReporting]
  cases exec i s <;> rfl

/-- R232: running a word that does not decode. -/
theorem dropReport_runWord_error {w : Word} {r : Reject} (h : decodeWord w = .error r) (s : State) :
    dropReport (runWord w s) = .fault (.unrecognizedOpcode w) := by
  simp only [dropReport, runWord, h, thenDo_fault]

/-- The only ways a step gives a next state: it waits, it completes a wait, or it executes a fetched and decoded
instruction. -/
theorem step_cases {s t : State} (h : step s = .next t) :
    (s.waiting = true ∧ t = s) ∨
    (s.waiting = false ∧ s.resume = true ∧ t = s.completeWait) ∨
    (s.waiting = false ∧ s.resume = false ∧ ∃ w i, fetch s = .next w ∧ decodeWord w = .ok i ∧ exec i s = .next t) := by
  cases hw : s.waiting
  · cases hr : s.resume
    · rw [step_fetching hw hr, thenDo_eq_next] at h
      obtain ⟨w, hf, hx⟩ := h
      cases hd : decodeWord w with
      | error r => rw [dropReport_runWord_error hd] at hx; cases hx
      | ok i =>
        rw [dropReport_runWord_ok hd] at hx
        exact .inr (.inr ⟨rfl, rfl, w, i, hf, hd, hx⟩)
    · rw [step_resume hw hr] at h
      cases h
      exact .inr (.inl ⟨rfl, rfl, rfl⟩)
  · rw [step_waiting hw] at h
    cases h
    exact .inl ⟨rfl, rfl⟩

/-- The bytes of a placed word are what the next fetch reads. -/
theorem read_placeWord {m : Memory} (h : m.Pairwise fun c d => c.1 < d.1) (a b : Nat) (w : Word) :
    Memory.read (Memory.placeWord m a w) b =
      if b = a + 1 then w.extractLsb' 0 8 else if b = a then w.extractLsb' 8 8 else Memory.read m b := by
  rw [Memory.placeWord, Memory.read_write (Memory.pairwise_write h _ _), Memory.read_write h]

/-- The PC of a placed word can be fetched from. -/
theorem fetchablePc_lt (pc : Word) : (fetchablePc pc).toNat + 1 < 0x1000 := by
  unfold fetchablePc
  split
  · rename_i h; simpa using h
  · simp

end Sys2Proof.Machine
end

