-- ==== Sys2Proof/Laws/Exec.lean ====
section
/-! SUPPORT. What each meaning does when it gives a next state, one lemma per instruction that can also end otherwise; and the
frame vocabulary's small lemmas. The other meanings answer one named update of the state, by definition. -/

namespace Sys2Proof.Machine

/-- A frame, one field at a time. -/
theorem sameBut_iff {l : List Part} {s t : State} : SameBut l s t ↔
    (.mem ∈ l ∨ ∀ a, Memory.read t.mem a = Memory.read s.mem a) ∧ (.v ∈ l ∨ ∀ r, t.reg r = s.reg r) ∧
    (.i ∈ l ∨ t.i = s.i) ∧ (.pc ∈ l ∨ t.pc = s.pc) ∧ (.sp ∈ l ∨ t.sp = s.sp) ∧ (.stack ∈ l ∨ t.stack = s.stack) ∧
    (.dt ∈ l ∨ t.dt = s.dt) ∧ (.st ∈ l ∨ t.st = s.st) ∧ (.px ∈ l ∨ t.px = s.px) ∧ (.dirty ∈ l ∨ t.dirty = s.dirty) ∧
    (.key ∈ l ∨ t.key = s.key) ∧ (.waiting ∈ l ∨ t.waiting = s.waiting) ∧ (.target ∈ l ∨ t.target = s.target) ∧
    (.resume ∈ l ∨ t.resume = s.resume) ∧ (.draws ∈ l ∨ t.draws = s.draws) := by
  constructor
  · intro h
    refine ⟨?_, ?_, ?_, ?_, ?_, ?_, ?_, ?_, ?_, ?_, ?_, ?_, ?_, ?_, ?_⟩ <;> exact or_iff_not_imp_left.2 (h _)
  · rintro ⟨h1, h2, h3, h4, h5, h6, h7, h8, h9, h10, h11, h12, h13, h14, h15⟩ p hp
    cases p
    · exact h1.resolve_left hp
    · exact h2.resolve_left hp
    · exact h3.resolve_left hp
    · exact h4.resolve_left hp
    · exact h5.resolve_left hp
    · exact h6.resolve_left hp
    · exact h7.resolve_left hp
    · exact h8.resolve_left hp
    · exact h9.resolve_left hp
    · exact h10.resolve_left hp
    · exact h11.resolve_left hp
    · exact h12.resolve_left hp
    · exact h13.resolve_left hp
    · exact h14.resolve_left hp
    · exact h15.resolve_left hp

/-- RET (R121). -/
theorem execRet_eq_next {s t : State} :
    execRet s = .next t ↔ 0 < s.sp ∧ t = (s.setSp (s.sp - 1)).setPc (s.stackSlot (s.sp - 1)) := by
  simp only [execRet, thenDo_eq_next, popReturn_eq_next, Host.Outcome.next.injEq]
  constructor
  · rintro ⟨_, ⟨h, rfl⟩, rfl⟩; exact ⟨h, rfl⟩
  · rintro ⟨h, rfl⟩; exact ⟨_, ⟨h, rfl⟩, rfl⟩

/-- CALL (R123). -/
theorem execCall_eq_next {nnn : Addr12} {s t : State} :
    execCall nnn s = .next t ↔ s.sp < config.stackDepth ∧ t = (s.pushSlot (s.pc + 2)).setPc (literalAddr nnn) := by
  simp only [execCall, thenDo_eq_next, pushReturn_eq_next, Host.Outcome.next.injEq]
  constructor
  · rintro ⟨_, ⟨h, rfl⟩, rfl⟩; exact ⟨h, rfl⟩
  · rintro ⟨h, rfl⟩; exact ⟨_, ⟨h, rfl⟩, rfl⟩

/-- FX29 (R173). -/
theorem execLdF_eq_next {x : RegIdx} {s t : State} :
    execLdF x s = .next t ↔ (s.reg x).toNat ≤ 0xF ∧ t = (s.setI (glyphAddr (s.reg x).toNat)).advance := by
  unfold execLdF
  split
  · rename_i h; simp only [reduceCtorEq, false_iff]; omega
  · rename_i h; simp only [Host.Outcome.next.injEq, eq_comm]; exact ⟨fun e => ⟨by omega, e⟩, fun e => e.2⟩

/-- FX33 (R175). -/
theorem execLdB_eq_next {x : RegIdx} {s t : State} :
    execLdB x s = .next t ↔ ∃ m, writeBytes s.mem s.i.toNat (bcdDigits (s.reg x)) = .next m ∧ t = (s.setMem m).advance := by
  simp only [execLdB, thenDo_eq_next, Host.Outcome.next.injEq, @eq_comm _ t]

/-- FX55 (R176). -/
theorem execStoreRegs_eq_next {x : RegIdx} {s t : State} :
    execStoreRegs x s = .next t ↔ ∃ m, writeBytes s.mem s.i.toNat (s.regsUpTo x) = .next m ∧ t = (s.setMem m).advance := by
  simp only [execStoreRegs, thenDo_eq_next, Host.Outcome.next.injEq, @eq_comm _ t]

/-- FX65 (R177). -/
theorem execLoadRegs_eq_next {x : RegIdx} {s t : State} :
    execLoadRegs x s = .next t ↔ (∀ k, k < x.val + 1 → s.i.toNat + k < 0x1000) ∧
      t = (s.setRegs (putRegs s.v 0 ((List.range (x.val + 1)).map fun k => Memory.read s.mem (s.i.toNat + k)))).advance := by
  simp only [execLoadRegs, thenDo_eq_next, readBytes_eq_next, Host.Outcome.next.injEq]
  constructor
  · rintro ⟨_, ⟨h, rfl⟩, rfl⟩; exact ⟨h, rfl⟩
  · rintro ⟨h, rfl⟩; exact ⟨_, ⟨h, rfl⟩, rfl⟩

/-- The display and collision of a DRW whose rows can be read (R192). -/
def drawn (x y : RegIdx) (n : Count) (s : State) : Canvas :=
  drawRows (s.reg x).toNat (s.reg y).toNat 0 ((List.range n.val).map fun k => Memory.read s.mem (s.i.toNat + k)) ⟨s.px, false⟩

/-- DXYN (R192). -/
theorem execDrw_eq_next {x y : RegIdx} {n : Count} {s t : State} :
    execDrw x y n s = .next t ↔ (∀ k, k < n.val → s.i.toNat + k < 0x1000) ∧
      t = ((s.setScreen (drawn x y n s).px).setFlag (drawn x y n s).collision).advance := by
  simp only [execDrw, thenDo_eq_next, readBytes_eq_next, Host.Outcome.next.injEq]
  constructor
  · rintro ⟨_, ⟨h, rfl⟩, rfl⟩; exact ⟨h, rfl⟩
  · rintro ⟨h, rfl⟩; exact ⟨_, ⟨h, rfl⟩, rfl⟩

/-- EX9E (R210). -/
theorem execSkp_eq_next {x : RegIdx} {s t : State} :
    execSkp x s = .next t ↔ ∃ k : KeyIdx, (s.reg x).toNat = k.val ∧ t = s.skipIf (s.keyDownNow k) := by
  simp only [execSkp, thenDo_eq_next, keyIndex_eq_next, Host.Outcome.next.injEq, @eq_comm _ t]

/-- EXA1 (R211). -/
theorem execSknp_eq_next {x : RegIdx} {s t : State} :
    execSknp x s = .next t ↔ ∃ k : KeyIdx, (s.reg x).toNat = k.val ∧ t = s.skipIf (!s.keyDownNow k) := by
  simp only [execSknp, thenDo_eq_next, keyIndex_eq_next, Host.Outcome.next.injEq, @eq_comm _ t]

/-- A step that gives a next state from a state that executes: what it executed. -/
theorem step_executes {s t : State} (h : step s = .next t) :
    (s.waiting = true ∧ t = s) ∨ (s.waiting = false ∧ s.resume = true ∧ t = s.completeWait) ∨
    ∃ i, Executes s i ∧ exec i s = .next t := by
  rcases step_cases h with h | h | ⟨hw, hr, w, i, hf, hd, hx⟩
  · exact .inl h
  · exact .inr (.inl h)
  · exact .inr (.inr ⟨i, ⟨hw, hr, w, hf, hd⟩, hx⟩)

/-- The pixels a sprite's set bits target, in the terms of the pixel loop (R192). -/
theorem spriteTargets_iff {s : State} {x y : RegIdx} {n : Count} {row : Row} {col : Col} :
    SpriteTargets s x y n row col ↔
      rowsCover (s.reg x).toNat (s.reg y).toNat 0
        ((List.range n.val).map fun k => Memory.read s.mem (s.i.toNat + k)) row col := by
  simp only [SpriteTargets, rowsCover, rowCovers, spriteBit, wrapRow, wrapCol, Fin.ext_iff, List.length_map,
    List.length_range, Nat.zero_add]
  constructor
  · rintro ⟨r, b, hr, hb, h1, h2, h3⟩
    exact ⟨r, hr, h1, b, hb, h2, by simpa [List.getD_eq_getElem?_getD, hr] using h3⟩
  · rintro ⟨r, hr, h1, b, hb, h2, h3⟩
    exact ⟨r, b, hr, hb, h1, h2, by simpa [List.getD_eq_getElem?_getD, hr] using h3⟩

/-- R192: what the drawn canvas shows: the targeted pixels inverted, a collision exactly where one of them was 1. -/
theorem drawn_spec (x y : RegIdx) (n : Count) (s : State) :
    (∀ r c, (drawn x y n s).px.pixel r c = true ↔ (SpriteTargets s x y n r c ↔ s.px.pixel r c = false)) ∧
    ((drawn x y n s).collision = true ↔ ∃ r c, SpriteTargets s x y n r c ∧ s.px.pixel r c = true) := by
  have hn := n.isLt
  obtain ⟨h1, h2⟩ := drawRows_spec (s.reg x).toNat (s.reg y).toNat
    ((List.range n.val).map fun k => Memory.read s.mem (s.i.toNat + k)) 0 ⟨s.px, false⟩ (by simp; omega)
  refine ⟨fun r c => ?_, ?_⟩
  · rw [drawn, h1, spriteTargets_iff]
  · rw [drawn, h2]
    simp only [Bool.false_eq_true, false_or, spriteTargets_iff]

end Sys2Proof.Machine
end

