-- ==== Sys2Proof/Laws/Frames.lean ====
section
/-! SUPPORT. Which instructions write which part of the state, said once for all of them; and how a schedule of host calls
splits. -/

namespace Sys2Proof.Machine

/-- The parts of the state outside memory and the register file, and the instructions that write each. -/
theorem exec_writes {s t : State} {i : Instr} (h : exec i s = .next t) :
    (t.i = s.i ∨ (∃ nnn, i = .ldI nnn) ∨ (∃ x, i = .addI x) ∨ ∃ x, i = .ldF x) ∧
    (t.dt = s.dt ∨ ∃ x, i = .ldDtVx x) ∧ (t.st = s.st ∨ ∃ x, i = .ldStVx x) ∧
    ((t.px = s.px ∧ t.dirty = s.dirty) ∨ ((i = .cls ∨ ∃ x y n, i = .drw x y n) ∧ t.dirty = true ∧ t.mem = s.mem)) ∧
    ((t.waiting = s.waiting ∧ t.target = s.target) ∨ ∃ x, i = .ldVxK x ∧ t = s.enterWait x) ∧
    t.key = s.key ∧ t.resume = s.resume ∧ (t.draws = s.draws ∨ ∃ x kk, i = .rnd x kk) ∧
    ((t.sp = s.sp ∧ t.stack = s.stack) ∨
      (∃ nnn, i = .call nnn ∧ s.sp < config.stackDepth ∧ t = (s.pushSlot (s.pc + 2)).setPc (literalAddr nnn)) ∨
      (i = .ret ∧ 0 < s.sp ∧ t = (s.setSp (s.sp - 1)).setPc (s.stackSlot (s.sp - 1)))) := by
  cases i <;> simp only [exec, execCls, execSys, execJp, execSeImm, execSneImm, execSeReg, execSneReg, execLdImm,
    execAddImm, execLdReg, execOr, execAnd, execXor, execAddReg, execSub, execShr, execSubn, execShl, execLdI, execJpV0,
    execRnd, drawRandom, execLdVxDt, execLdVxK, execLdDtVx, execLdStVx, execAddI, execRet_eq_next, execCall_eq_next,
    execLdF_eq_next, execLdB_eq_next, execStoreRegs_eq_next, execLoadRegs_eq_next, execDrw_eq_next, execSkp_eq_next,
    execSknp_eq_next, Host.Outcome.next.injEq] at h
  case call => obtain ⟨h, rfl⟩ := h; simp [h]
  case ret => obtain ⟨h, rfl⟩ := h; simp [h]
  all_goals first | subst h | (obtain ⟨_, rfl⟩ := h) | (obtain ⟨_, _, rfl⟩ := h)
  all_goals simp [State.enterWait]

/-- Memory is written by FX33 and FX55 alone, each through `writeBytes` at I (R60). -/
theorem exec_writes_mem {s t : State} {i : Instr} (h : exec i s = .next t) :
    t.mem = s.mem ∨
    (∃ x, i = .ldB x ∧ writeBytes s.mem s.i.toNat (bcdDigits (s.reg x)) = .next t.mem) ∨
    (∃ x, i = .storeRegs x ∧ writeBytes s.mem s.i.toNat (s.regsUpTo x) = .next t.mem) := by
  cases i <;> simp only [exec, execCls, execSys, execJp, execSeImm, execSneImm, execSeReg, execSneReg, execLdImm,
    execAddImm, execLdReg, execOr, execAnd, execXor, execAddReg, execSub, execShr, execSubn, execShl, execLdI, execJpV0,
    execRnd, drawRandom, execLdVxDt, execLdVxK, execLdDtVx, execLdStVx, execAddI, execRet_eq_next, execCall_eq_next,
    execLdF_eq_next, execLdB_eq_next, execStoreRegs_eq_next, execLoadRegs_eq_next, execDrw_eq_next, execSkp_eq_next,
    execSknp_eq_next, Host.Outcome.next.injEq] at h
  case ldB x => obtain ⟨m, hm, rfl⟩ := h; exact .inr (.inl ⟨x, rfl, hm⟩)
  case storeRegs x => obtain ⟨m, hm, rfl⟩ := h; exact .inr (.inr ⟨x, rfl, hm⟩)
  all_goals left
  all_goals first | subst h | (obtain ⟨_, rfl⟩ := h) | (obtain ⟨_, _, rfl⟩ := h)
  all_goals simp [State.enterWait]

/-- An instruction keeps memory canonical and the font as it was (R57). -/
theorem exec_keeps_mem_wf {s t : State} {i : Instr} (hw : Memory.wf s.mem) (h : exec i s = .next t) :
    Memory.wf t.mem ∧ ∀ a, inFont a → Memory.read t.mem a = Memory.read s.mem a := by
  rcases exec_writes_mem h with h | ⟨_, _, h⟩ | ⟨_, _, h⟩
  · rw [h]; exact ⟨hw, fun _ _ => rfl⟩
  · exact ⟨writeBytes_wf hw h, fun _ ha => writeBytes_read_font hw h ha⟩
  · exact ⟨writeBytes_wf hw h, fun _ ha => writeBytes_read_font hw h ha⟩

/-- A slot reads the same where the stacks agree. -/
theorem State.stackSlot_congr {s t : State} (h : t.stack = s.stack) (j : Nat) : t.stackSlot j = s.stackSlot j := by
  simp [State.stackSlot, h]

/-- A schedule in two parts (R258). -/
theorem runSchedule_append (cs ds : List HostCall) : ∀ s : State,
    runSchedule (cs ++ ds) s = thenDo (runSchedule cs s) (runSchedule ds) := by
  induction cs with
  | nil => intro s; rfl
  | cons c cs ih =>
    intro s
    simp only [List.cons_append, runSchedule]
    cases hostCall c s <;> simp [ih]

end Sys2Proof.Machine
end

