-- ==== Sys2Proof/Laws/PerInstr.lean ====
section
/-! SUPPORT. Statements about every instruction as syntax, one lemma per constructor. FamilyNibble: the leading nibble of an
instruction's word is its family (spec/30_encoding.md R74). -/

namespace Sys2Proof

/-- The family of an instruction: the leading nibble of its pattern in R75 (R74). -/
def Instr.family : Instr → Nat
  | .cls => 0x0
  | .ret => 0x0
  | .sys _ => 0x0
  | .jp _ => 0x1
  | .call _ => 0x2
  | .seImm _ _ => 0x3
  | .sneImm _ _ => 0x4
  | .seReg _ _ => 0x5
  | .ldImm _ _ => 0x6
  | .addImm _ _ => 0x7
  | .ldReg _ _ => 0x8
  | .or _ _ => 0x8
  | .and _ _ => 0x8
  | .xor _ _ => 0x8
  | .addReg _ _ => 0x8
  | .sub _ _ => 0x8
  | .shr _ _ => 0x8
  | .subn _ _ => 0x8
  | .shl _ _ => 0x8
  | .sneReg _ _ => 0x9
  | .ldI _ => 0xA
  | .jpV0 _ => 0xB
  | .rnd _ _ => 0xC
  | .drw _ _ _ => 0xD
  | .skp _ => 0xE
  | .sknp _ => 0xE
  | .ldVxDt _ => 0xF
  | .ldVxK _ => 0xF
  | .ldDtVx _ => 0xF
  | .ldStVx _ => 0xF
  | .addI _ => 0xF
  | .ldF _ => 0xF
  | .ldB _ => 0xF
  | .storeRegs _ => 0xF
  | .loadRegs _ => 0xF

/-- R74: the leading nibble of the instruction's word selects its family. -/
def Laws.FamilyNibble.Statement (i : Instr) : Prop := fieldOp (encode i) = i.family

theorem Laws.FamilyNibble.cls : Laws.FamilyNibble.Statement .cls := (by decide : fieldOp (encode .cls) = 0)
theorem Laws.FamilyNibble.ret : Laws.FamilyNibble.Statement .ret := (by decide : fieldOp (encode .ret) = 0)
theorem Laws.FamilyNibble.sys (nnn : Addr12) : Laws.FamilyNibble.Statement (.sys nnn) := fieldOp_encNNN (by decide) nnn
theorem Laws.FamilyNibble.jp (nnn : Addr12) : Laws.FamilyNibble.Statement (.jp nnn) := fieldOp_encNNN (by decide) nnn
theorem Laws.FamilyNibble.call (nnn : Addr12) : Laws.FamilyNibble.Statement (.call nnn) := fieldOp_encNNN (by decide) nnn
theorem Laws.FamilyNibble.seImm (x : RegIdx) (kk : Byte) : Laws.FamilyNibble.Statement (.seImm x kk) := fieldOp_encXKK (by decide) x kk.isLt
theorem Laws.FamilyNibble.sneImm (x : RegIdx) (kk : Byte) : Laws.FamilyNibble.Statement (.sneImm x kk) := fieldOp_encXKK (by decide) x kk.isLt
theorem Laws.FamilyNibble.seReg (x : RegIdx) (y : RegIdx) : Laws.FamilyNibble.Statement (.seReg x y) := fieldOp_encXYN (by decide) x y (by decide)
theorem Laws.FamilyNibble.ldImm (x : RegIdx) (kk : Byte) : Laws.FamilyNibble.Statement (.ldImm x kk) := fieldOp_encXKK (by decide) x kk.isLt
theorem Laws.FamilyNibble.addImm (x : RegIdx) (kk : Byte) : Laws.FamilyNibble.Statement (.addImm x kk) := fieldOp_encXKK (by decide) x kk.isLt
theorem Laws.FamilyNibble.ldReg (x : RegIdx) (y : RegIdx) : Laws.FamilyNibble.Statement (.ldReg x y) := fieldOp_encXYN (by decide) x y (by decide)
theorem Laws.FamilyNibble.or (x : RegIdx) (y : RegIdx) : Laws.FamilyNibble.Statement (.or x y) := fieldOp_encXYN (by decide) x y (by decide)
theorem Laws.FamilyNibble.and (x : RegIdx) (y : RegIdx) : Laws.FamilyNibble.Statement (.and x y) := fieldOp_encXYN (by decide) x y (by decide)
theorem Laws.FamilyNibble.xor (x : RegIdx) (y : RegIdx) : Laws.FamilyNibble.Statement (.xor x y) := fieldOp_encXYN (by decide) x y (by decide)
theorem Laws.FamilyNibble.addReg (x : RegIdx) (y : RegIdx) : Laws.FamilyNibble.Statement (.addReg x y) := fieldOp_encXYN (by decide) x y (by decide)
theorem Laws.FamilyNibble.sub (x : RegIdx) (y : RegIdx) : Laws.FamilyNibble.Statement (.sub x y) := fieldOp_encXYN (by decide) x y (by decide)
theorem Laws.FamilyNibble.shr (x : RegIdx) (y : RegIdx) : Laws.FamilyNibble.Statement (.shr x y) := fieldOp_encXYN (by decide) x y (by decide)
theorem Laws.FamilyNibble.subn (x : RegIdx) (y : RegIdx) : Laws.FamilyNibble.Statement (.subn x y) := fieldOp_encXYN (by decide) x y (by decide)
theorem Laws.FamilyNibble.shl (x : RegIdx) (y : RegIdx) : Laws.FamilyNibble.Statement (.shl x y) := fieldOp_encXYN (by decide) x y (by decide)
theorem Laws.FamilyNibble.sneReg (x : RegIdx) (y : RegIdx) : Laws.FamilyNibble.Statement (.sneReg x y) := fieldOp_encXYN (by decide) x y (by decide)
theorem Laws.FamilyNibble.ldI (nnn : Addr12) : Laws.FamilyNibble.Statement (.ldI nnn) := fieldOp_encNNN (by decide) nnn
theorem Laws.FamilyNibble.jpV0 (nnn : Addr12) : Laws.FamilyNibble.Statement (.jpV0 nnn) := fieldOp_encNNN (by decide) nnn
theorem Laws.FamilyNibble.rnd (x : RegIdx) (kk : Byte) : Laws.FamilyNibble.Statement (.rnd x kk) := fieldOp_encXKK (by decide) x kk.isLt
theorem Laws.FamilyNibble.drw (x : RegIdx) (y : RegIdx) (n : Count) : Laws.FamilyNibble.Statement (.drw x y n) := fieldOp_encXYN (by decide) x y n.isLt
theorem Laws.FamilyNibble.skp (x : RegIdx) : Laws.FamilyNibble.Statement (.skp x) := fieldOp_encXKK (by decide) x (by decide)
theorem Laws.FamilyNibble.sknp (x : RegIdx) : Laws.FamilyNibble.Statement (.sknp x) := fieldOp_encXKK (by decide) x (by decide)
theorem Laws.FamilyNibble.ldVxDt (x : RegIdx) : Laws.FamilyNibble.Statement (.ldVxDt x) := fieldOp_encXKK (by decide) x (by decide)
theorem Laws.FamilyNibble.ldVxK (x : RegIdx) : Laws.FamilyNibble.Statement (.ldVxK x) := fieldOp_encXKK (by decide) x (by decide)
theorem Laws.FamilyNibble.ldDtVx (x : RegIdx) : Laws.FamilyNibble.Statement (.ldDtVx x) := fieldOp_encXKK (by decide) x (by decide)
theorem Laws.FamilyNibble.ldStVx (x : RegIdx) : Laws.FamilyNibble.Statement (.ldStVx x) := fieldOp_encXKK (by decide) x (by decide)
theorem Laws.FamilyNibble.addI (x : RegIdx) : Laws.FamilyNibble.Statement (.addI x) := fieldOp_encXKK (by decide) x (by decide)
theorem Laws.FamilyNibble.ldF (x : RegIdx) : Laws.FamilyNibble.Statement (.ldF x) := fieldOp_encXKK (by decide) x (by decide)
theorem Laws.FamilyNibble.ldB (x : RegIdx) : Laws.FamilyNibble.Statement (.ldB x) := fieldOp_encXKK (by decide) x (by decide)
theorem Laws.FamilyNibble.storeRegs (x : RegIdx) : Laws.FamilyNibble.Statement (.storeRegs x) := fieldOp_encXKK (by decide) x (by decide)
theorem Laws.FamilyNibble.loadRegs (x : RegIdx) : Laws.FamilyNibble.Statement (.loadRegs x) := fieldOp_encXKK (by decide) x (by decide)

end Sys2Proof
end

