-- ==== Sys2Proof/Tests/Slice0.lean ====
section
/-! SUPPORT. Tests. Expected results come from spec/95_test_vectors.md (the table is named in each section) or, where a line says
so, from a rule read by hand. The last section shows, for every statement with hypotheses, a state and operands that meet
them, clause by clause at the ends of their ranges. -/

namespace Sys2Proof.Tests

open Sys2Proof Sys2Proof.Machine

/-! ### Small helpers -/

/-- The state after an instruction, where there is one. -/
def after (i : Instr) (s : State) : Option State :=
  match exec i s with
  | .next t => some t
  | .fault _ => none
  | .refused _ => none

/-- The value of one register after an instruction, and VF beside it. -/
def resultAndFlag (i : Instr) (x : RegIdx) (s : State) : Option (Byte × Byte) := (after i s).map fun t => (t.reg x, t.reg VF)

/-- The PC after an instruction. -/
def pcAfter (i : Instr) (s : State) : Option Word := (after i s).map State.pc

/-- V0 and V1 at the given values, all else as at construction. -/
def regs (a b : Byte) : State := (State.reset.setReg 0 a).setReg 1 b

/-- Register x at the given value, all else as at construction. -/
def withReg (x : RegIdx) (a : Byte) : State := State.reset.setReg x a

/-- I at the given value and V0, V1 beside it. -/
def withI (i : Word) (a b : Byte) : State := (regs a b).setI i

/-- Memory bytes stored one by one from an address on. -/
def poke (a : Nat) (bs : List Byte) (s : State) : State :=
  match bs with
  | [] => s
  | b :: rest => poke (a + 1) rest (s.setMem (Memory.write s.mem a b))

/-- The bytes at the `n` addresses from `a` on. -/
def peek (a n : Nat) (s : State) : List Byte := (List.range n).map fun k => Memory.read s.mem (a + k)

/-- SP and the lowest slots as given, all else as at construction. -/
def withStack (vs : List Word) : State := vs.foldl State.pushSlot State.reset

/-- A stack of sixteen entries. -/
def fullStack : State := withStack (List.replicate 16 0x206)

/-- A state whose next fetch reads the word. -/
def placed (word : Nat) : State := State.reset.withFetchWord 16 word

/-- Does a step from the state give a next state? -/
def steps (s : State) : Bool :=
  match step s with
  | .next _ => true
  | .fault _ => false
  | .refused _ => false

/-- The state after a step, where there is one. -/
def afterStep (s : State) : Option State :=
  match step s with
  | .next t => some t
  | .fault _ => none
  | .refused _ => none

/-- Waiting for a key that goes to V3. -/
def waitingState : State := State.reset.enterWait 3

/-- The state after key 7 has ended that wait: the deferred advance is due. -/
def resumingState : State := keyDown 7 waitingState

/-! ### Well-formedness: the one check, and ill-formed terms it refuses (R76, R120) -/

theorem test_sys_of_cls_word_is_ill_formed : (Instr.sys 0x0E0).wellFormed = false := by decide
theorem test_sys_of_ret_word_is_ill_formed : (Instr.sys 0x0EE).wellFormed = false := by decide
theorem test_sys_beside_cls_is_well_formed : (Instr.sys 0x0E1).wellFormed = true := by decide
theorem test_sys_with_leading_digit_is_well_formed : (Instr.sys 0x1E0).wellFormed = true := by decide

/-! ### Decoding: a word of every constructor, from L2.1, and its encoding -/

theorem test_decode_cls : decodeWord 0x00E0 = .ok (.cls) ∧ encode (.cls) = 0x00E0 := ⟨rfl, by decide⟩
theorem test_decode_ret : decodeWord 0x00EE = .ok (.ret) ∧ encode (.ret) = 0x00EE := ⟨rfl, by decide⟩
theorem test_decode_sys : decodeWord 0x00E1 = .ok (.sys 0x0E1) ∧ encode (.sys 0x0E1) = 0x00E1 := ⟨rfl, by decide⟩
theorem test_decode_jp : decodeWord 0x1ABC = .ok (.jp 0xABC) ∧ encode (.jp 0xABC) = 0x1ABC := ⟨rfl, by decide⟩
theorem test_decode_call : decodeWord 0x2ABC = .ok (.call 0xABC) ∧ encode (.call 0xABC) = 0x2ABC := ⟨rfl, by decide⟩
theorem test_decode_seImm : decodeWord 0x3A7F = .ok (.seImm 0xA 0x7F) ∧ encode (.seImm 0xA 0x7F) = 0x3A7F := ⟨rfl, by decide⟩
theorem test_decode_sneImm : decodeWord 0x4A7F = .ok (.sneImm 0xA 0x7F) ∧ encode (.sneImm 0xA 0x7F) = 0x4A7F := ⟨rfl, by decide⟩
theorem test_decode_seReg : decodeWord 0x5AB0 = .ok (.seReg 0xA 0xB) ∧ encode (.seReg 0xA 0xB) = 0x5AB0 := ⟨rfl, by decide⟩
theorem test_decode_ldImm : decodeWord 0x6A7F = .ok (.ldImm 0xA 0x7F) ∧ encode (.ldImm 0xA 0x7F) = 0x6A7F := ⟨rfl, by decide⟩
theorem test_decode_addImm : decodeWord 0x7A7F = .ok (.addImm 0xA 0x7F) ∧ encode (.addImm 0xA 0x7F) = 0x7A7F := ⟨rfl, by decide⟩
theorem test_decode_ldReg : decodeWord 0x8AB0 = .ok (.ldReg 0xA 0xB) ∧ encode (.ldReg 0xA 0xB) = 0x8AB0 := ⟨rfl, by decide⟩
theorem test_decode_or : decodeWord 0x8AB1 = .ok (.or 0xA 0xB) ∧ encode (.or 0xA 0xB) = 0x8AB1 := ⟨rfl, by decide⟩
theorem test_decode_and : decodeWord 0x8AB2 = .ok (.and 0xA 0xB) ∧ encode (.and 0xA 0xB) = 0x8AB2 := ⟨rfl, by decide⟩
theorem test_decode_xor : decodeWord 0x8AB3 = .ok (.xor 0xA 0xB) ∧ encode (.xor 0xA 0xB) = 0x8AB3 := ⟨rfl, by decide⟩
theorem test_decode_addReg : decodeWord 0x8AB4 = .ok (.addReg 0xA 0xB) ∧ encode (.addReg 0xA 0xB) = 0x8AB4 := ⟨rfl, by decide⟩
theorem test_decode_sub : decodeWord 0x8AB5 = .ok (.sub 0xA 0xB) ∧ encode (.sub 0xA 0xB) = 0x8AB5 := ⟨rfl, by decide⟩
theorem test_decode_shr : decodeWord 0x8AB6 = .ok (.shr 0xA 0xB) ∧ encode (.shr 0xA 0xB) = 0x8AB6 := ⟨rfl, by decide⟩
theorem test_decode_subn : decodeWord 0x8AB7 = .ok (.subn 0xA 0xB) ∧ encode (.subn 0xA 0xB) = 0x8AB7 := ⟨rfl, by decide⟩
theorem test_decode_shl : decodeWord 0x8ABE = .ok (.shl 0xA 0xB) ∧ encode (.shl 0xA 0xB) = 0x8ABE := ⟨rfl, by decide⟩
theorem test_decode_sneReg : decodeWord 0x9AB0 = .ok (.sneReg 0xA 0xB) ∧ encode (.sneReg 0xA 0xB) = 0x9AB0 := ⟨rfl, by decide⟩
theorem test_decode_ldI : decodeWord 0xAABC = .ok (.ldI 0xABC) ∧ encode (.ldI 0xABC) = 0xAABC := ⟨rfl, by decide⟩
theorem test_decode_jpV0 : decodeWord 0xBABC = .ok (.jpV0 0xABC) ∧ encode (.jpV0 0xABC) = 0xBABC := ⟨rfl, by decide⟩
theorem test_decode_rnd : decodeWord 0xCA7F = .ok (.rnd 0xA 0x7F) ∧ encode (.rnd 0xA 0x7F) = 0xCA7F := ⟨rfl, by decide⟩
theorem test_decode_drw : decodeWord 0xDAB7 = .ok (.drw 0xA 0xB 0x7) ∧ encode (.drw 0xA 0xB 0x7) = 0xDAB7 := ⟨rfl, by decide⟩
theorem test_decode_skp : decodeWord 0xEA9E = .ok (.skp 0xA) ∧ encode (.skp 0xA) = 0xEA9E := ⟨rfl, by decide⟩
theorem test_decode_sknp : decodeWord 0xEAA1 = .ok (.sknp 0xA) ∧ encode (.sknp 0xA) = 0xEAA1 := ⟨rfl, by decide⟩
theorem test_decode_ldVxDt : decodeWord 0xFA07 = .ok (.ldVxDt 0xA) ∧ encode (.ldVxDt 0xA) = 0xFA07 := ⟨rfl, by decide⟩
theorem test_decode_ldVxK : decodeWord 0xFA0A = .ok (.ldVxK 0xA) ∧ encode (.ldVxK 0xA) = 0xFA0A := ⟨rfl, by decide⟩
theorem test_decode_ldDtVx : decodeWord 0xFA15 = .ok (.ldDtVx 0xA) ∧ encode (.ldDtVx 0xA) = 0xFA15 := ⟨rfl, by decide⟩
theorem test_decode_ldStVx : decodeWord 0xFA18 = .ok (.ldStVx 0xA) ∧ encode (.ldStVx 0xA) = 0xFA18 := ⟨rfl, by decide⟩
theorem test_decode_addI : decodeWord 0xFA1E = .ok (.addI 0xA) ∧ encode (.addI 0xA) = 0xFA1E := ⟨rfl, by decide⟩
theorem test_decode_ldF : decodeWord 0xFA29 = .ok (.ldF 0xA) ∧ encode (.ldF 0xA) = 0xFA29 := ⟨rfl, by decide⟩
theorem test_decode_ldB : decodeWord 0xFA33 = .ok (.ldB 0xA) ∧ encode (.ldB 0xA) = 0xFA33 := ⟨rfl, by decide⟩
theorem test_decode_storeRegs : decodeWord 0xFA55 = .ok (.storeRegs 0xA) ∧ encode (.storeRegs 0xA) = 0xFA55 := ⟨rfl, by decide⟩
theorem test_decode_loadRegs : decodeWord 0xFA65 = .ok (.loadRegs 0xA) ∧ encode (.loadRegs 0xA) = 0xFA65 := ⟨rfl, by decide⟩

theorem test_decode_zero_word_is_sys : decodeWord 0x0000 = .ok (.sys 0) := rfl
theorem test_decode_sys_fff : decodeWord 0x0FFF = .ok (.sys 0xFFF) := rfl
theorem test_decode_drw_of_no_rows : decodeWord 0xDAB0 = .ok (.drw 0xA 0xB 0) := rfl
theorem test_decode_5ab1_unrecognized : decodeWord 0x5AB1 = .error (.unrecognized 0x5AB1) := rfl
theorem test_decode_9abf_unrecognized : decodeWord 0x9ABF = .error (.unrecognized 0x9ABF) := rfl
theorem test_decode_8ab8_8abd_8abf_unrecognized : decodeWord 0x8AB8 = .error (.unrecognized 0x8AB8) ∧
    decodeWord 0x8ABD = .error (.unrecognized 0x8ABD) ∧ decodeWord 0x8ABF = .error (.unrecognized 0x8ABF) := ⟨rfl, rfl, rfl⟩
theorem test_decode_family_e_unrecognized : decodeWord 0xEA9F = .error (.unrecognized 0xEA9F) ∧
    decodeWord 0xEAA0 = .error (.unrecognized 0xEAA0) ∧ decodeWord 0xE000 = .error (.unrecognized 0xE000) :=
  ⟨rfl, rfl, rfl⟩
theorem test_decode_family_f_unrecognized : decodeWord 0xF000 = .error (.unrecognized 0xF000) ∧
    decodeWord 0xFA08 = .error (.unrecognized 0xFA08) ∧ decodeWord 0xFA75 = .error (.unrecognized 0xFA75) ∧
    decodeWord 0xFFFF = .error (.unrecognized 0xFFFF) := ⟨rfl, rfl, rfl, rfl⟩

/-- R58: high byte first. -/
theorem test_decode_bytes_high_byte_first : decodeBytes [0x6A, 0x05, 0xFF] = .ok (.ldImm 0xA 0x05, [0xFF]) := rfl
theorem test_decode_bytes_too_few : (decodeBytes [0x6A]).toOption = none := rfl
theorem test_decode_table_word : decodeTableWord 16 0xDAB7 = some (.drw 0xA 0xB 0x7) := by decide
theorem test_placed_word_runs : (afterStep (placed 0x6A7F)).map (fun t => (t.reg 0xA, t.pc)) = some (0x7F, 0x202) := by
  decide

/-! ### The step cycle (L2.2, L2.8) -/

theorem test_step_at_last_word : (afterStep ((poke 0xFFE [0x60, 0x01] State.reset).setPc 0xFFE)).map
    (fun t => (t.reg 0, t.pc)) = some (1, 0x1000) := by decide
theorem test_step_above_memory : step (State.reset.setPc 0x1000) = .fault (.memoryOutOfBounds 0x1000) := rfl
theorem test_step_second_byte_above_memory : step (State.reset.setPc 0xFFF) = .fault (.memoryOutOfBounds 0x1000) := rfl
theorem test_step_at_odd_pc : (afterStep ((poke 0x201 [0x6A, 0x05] State.reset).setPc 0x201)).map
    (fun t => (t.reg 0xA, t.pc)) = some (5, 0x203) := by decide
theorem test_step_waiting_before_fetch : step (waitingState.setPc 0x1000) = .next (waitingState.setPc 0x1000) := rfl
theorem test_step_resumes : (afterStep resumingState).map (fun t => (t.pc, t.resume)) = some (0x202, false) := by decide
theorem test_step_reports_resume : (match stepReport resumingState with
    | .next p => some p.2 | .fault _ => none | .refused _ => none) = some .keyWaitCompleted := by decide
theorem test_step_unrecognized : step (placed 0x5121) = .fault (.unrecognizedOpcode 0x5121) := rfl
theorem test_step_on_empty_memory_is_sys : (afterStep State.reset).map State.pc = some 0x202 := by decide

/-! ### Control flow (L2.3) -/

theorem test_sys : pcAfter (.sys 0x123) State.reset = some 0x202 := by decide
theorem test_jp : pcAfter (.jp 0x234) State.reset = some 0x234 := by decide
theorem test_jp_to_itself : step (placed 0x1200) = .next (placed 0x1200) := rfl
theorem test_call : (after (.call 0x20E) (State.reset.setPc 0x204)).map (fun t => (t.stackSlot 0, t.sp, t.pc)) =
    some (0x206, 1, 0x20E) := by decide
theorem test_call_on_full_stack : exec (.call 0x300) fullStack = .fault .stackOverflow := rfl
theorem test_ret : (after .ret (withStack [0x206])).map (fun t => (t.pc, t.sp, t.stackSlot 0)) = some (0x206, 0, 0x206) := by
  decide
theorem test_ret_on_empty_stack : exec .ret State.reset = .fault .stackUnderflow := rfl
theorem test_seImm_skips : pcAfter (.seImm 3 0x42) (withReg 3 0x42) = some 0x204 := by decide
theorem test_seImm_passes : pcAfter (.seImm 3 0x42) (withReg 3 0x41) = some 0x202 := by decide
theorem test_sneImm_passes : pcAfter (.sneImm 3 0x42) (withReg 3 0x42) = some 0x202 := by decide
theorem test_sneImm_skips : pcAfter (.sneImm 3 0x42) (withReg 3 0x41) = some 0x204 := by decide
theorem test_seReg_skips : pcAfter (.seReg 0 1) (regs 7 7) = some 0x204 := by decide
theorem test_seReg_passes : pcAfter (.seReg 0 1) (regs 7 8) = some 0x202 := by decide
theorem test_sneReg_skips : pcAfter (.sneReg 0 1) (regs 7 8) = some 0x204 := by decide
theorem test_sneReg_same_register : pcAfter (.sneReg 1 1) (regs 7 8) = some 0x202 := by decide
theorem test_jpV0_does_not_wrap : pcAfter (.jpV0 0xFFF) (withReg 0 0xFF) = some 0x10FE := by decide
theorem test_jpV0_reads_v0_alone : pcAfter (.jpV0 0x500) (withReg 5 0x99) = some 0x500 := by decide

/-! ### Arithmetic and logic (L2.4) -/

theorem test_ldImm : resultAndFlag (.ldImm 0xA 0x7F) 0xA State.reset = some (0x7F, 0) := by decide
theorem test_addImm_no_carry : resultAndFlag (.addImm 0 0x01) 0 (withReg 0 0xFF) = some (0x00, 0) := by decide
theorem test_addImm_minus_one : resultAndFlag (.addImm 0 0xFF) 0 (withReg 0 0x10) = some (0x0F, 0) := by decide
theorem test_ldReg : resultAndFlag (.ldReg 0 1) 0 (regs 0 0x33) = some (0x33, 0) := by decide
theorem test_or_keeps_vf : resultAndFlag (.or 0 1) 0 ((regs 0x0F 0xF0).setReg VF 0x77) = some (0xFF, 0x77) := by decide
theorem test_and : resultAndFlag (.and 0 1) 0 (regs 0x3C 0x0F) = some (0x0C, 0) := by decide
theorem test_xor : resultAndFlag (.xor 0 1) 0 (regs 0x3C 0x0F) = some (0x33, 0) := by decide
theorem test_xor_same_register : resultAndFlag (.xor 0 0) 0 (regs 0x3C 0x0F) = some (0x00, 0) := by decide
theorem test_addReg_carry : resultAndFlag (.addReg 0 1) 0 (regs 0x80 0x80) = some (0x00, 1) := by decide
theorem test_addReg_into_vf : resultAndFlag (.addReg VF 1) VF ((regs 0 0x20).setReg VF 0xF0) = some (1, 1) := by decide
theorem test_sub_borrow : resultAndFlag (.sub 0 1) 0 (regs 3 5) = some (0xFE, 0) := by decide
theorem test_sub_equal : resultAndFlag (.sub 0 1) 0 (regs 7 7) = some (0x00, 1) := by decide
theorem test_subn_no_borrow : resultAndFlag (.subn 0 1) 0 (regs 3 5) = some (0x02, 1) := by decide
theorem test_subn_borrow : resultAndFlag (.subn 0 1) 0 (regs 5 3) = some (0xFE, 0) := by decide
theorem test_shr : resultAndFlag (.shr 2 0) 2 (withReg 2 0x05) = some (0x02, 1) := by decide
theorem test_shr_ignores_y : resultAndFlag (.shr 2 3) 2 ((withReg 2 0x04).setReg 3 0xFF) = some (0x02, 0) := by decide
theorem test_shl : resultAndFlag (.shl 2 0) 2 (withReg 2 0x81) = some (0x02, 1) := by decide
theorem test_shl_of_vf : resultAndFlag (.shl VF 0) VF (withReg VF 0x40) = some (0, 0) := by decide
/-- The other value of SHIFT_SOURCE, from the note below table L2.4. -/
theorem test_shift_operand_vy : shiftOperand .vy 2 3 ((withReg 2 0x04).setReg 3 0xFF) >>> 1 = 0x7F := by decide
theorem test_rnd_draws_and_masks : (after (.rnd 3 0x0F) State.reset).map (fun t => t.reg 3) =
    some (Config.randByte 0 &&& 0x0F) := rfl
theorem test_rnd_second_draw : ((after (.rnd 3 0xFF) State.reset).bind (after (.rnd 4 0xFF))).map
    (fun t => t.reg 4) = some (Config.randByte 1 &&& 0xFF) := rfl

/-! ### The address register and the transfers (L2.5) -/

theorem test_ldI : (after (.ldI 0xFFF) State.reset).map State.i = some 0xFFF := by decide
theorem test_addI_past_memory : (after (.addI 0) (withI 0xFFF 1 0)).map (fun t => (t.i, t.reg VF)) = some (0x1000, 0) := by
  decide
theorem test_addI_wraps : (after (.addI 0) (withI 0xFFFF 2 0)).map State.i = some 0x0001 := by decide
theorem test_ldF : (after (.ldF 4) (withReg 4 0x0A)).map State.i = some 0x082 := by decide
theorem test_ldF_refused : exec (.ldF 4) (withReg 4 0x10) = .refused (.fontDigitOutOfRange 0x10) := rfl
theorem test_ldB : (after (.ldB 0) (withI 0x300 156 0)).map (fun t => (peek 0x300 3 t, t.i)) = some ([1, 5, 6], 0x300) := by
  decide
theorem test_ldB_out_of_bounds : exec (.ldB 0) (withI 0xFFE 9 0) = .fault (.memoryOutOfBounds 0x1000) := rfl
theorem test_storeRegs : (after (.storeRegs 1) (withI 0x300 1 2)).map (peek 0x300 3) = some [1, 2, 0] := by decide
theorem test_storeRegs_into_the_font : exec (.storeRegs 1) (withI 0x04F 1 2) = .refused (.fontRegionWrite 0x050) := rfl
theorem test_loadRegs : (after (.loadRegs 2) ((poke 0x300 [1, 5, 6, 7] State.reset).setI 0x300)).map
    (fun t => [t.reg 0, t.reg 1, t.reg 2, t.reg 3]) = some [1, 5, 6, 0] := by decide
theorem test_loadRegs_font : (after (.loadRegs 4) (withI 0x050 0 0)).map
    (fun t => [t.reg 0, t.reg 1, t.reg 2, t.reg 3, t.reg 4]) = some [0xF0, 0x90, 0x90, 0x90, 0xF0] := by decide

/-! ### The display (L2.6) -/

/-- Which of the listed (row, column) pixels are on, and the flag. -/
def pixelsAndFlag (i : Instr) (at_ : List (Row × Col)) (s : State) : Option (List Bool × Byte) :=
  (after i s).map fun t => (at_.map fun p => t.px.pixel p.1 p.2, t.reg VF)

theorem test_cls : (after .cls (State.reset.setScreen (Screen.blank.setPixel 31 63 true))).map
    (fun t => (t.px.pixel 31 63, t.px.pixel 0 0, t.dirty)) = some (false, false, true) := by decide
theorem test_drw_wraps_columns : pixelsAndFlag (.drw 0 1 1) [(31, 60), (31, 63), (31, 0), (31, 3), (31, 4), (0, 0)]
    (poke 0x300 [0xFF] (withI 0x300 60 31)) = some ([true, true, true, true, false, false], 0) := by decide
theorem test_drw_collision : pixelsAndFlag (.drw 0 1 1) [(0, 0), (0, 1), (0, 2)]
    ((poke 0x300 [0xC0] (withI 0x300 0 0)).setScreen (Screen.blank.setPixel 0 0 true)) = some ([false, true, false], 1) := by
  decide

/-! ### Timers and keypad (L2.7) -/

theorem test_ldVxDt : (after (.ldVxDt 3) (State.reset.setDt 0x3C)).map (fun t => t.reg 3) = some 0x3C := by decide
theorem test_ldDtVx : (after (.ldDtVx 3) (withReg 3 60)).map (fun t => (t.dt, t.st)) = some (60, 0) := by decide
theorem test_ldStVx : (after (.ldStVx 3) (withReg 3 2)).map (fun t => (t.dt, t.st)) = some (0, 2) := by decide
theorem test_skp_down : pcAfter (.skp 5) ((withReg 5 0xA).setKey 0xA true) = some 0x204 := by decide
theorem test_skp_refused : exec (.skp 5) (withReg 5 0x10) = .refused (.keyIndexOutOfRange 0x10) := rfl
theorem test_sknp_down : pcAfter (.sknp 5) ((withReg 5 0xA).setKey 0xA true) = some 0x202 := by decide
theorem test_sknp_up : pcAfter (.sknp 5) (withReg 5 0xA) = some 0x204 := by decide
theorem test_ldVxK : (after (.ldVxK 3) State.reset).map (fun t => (t.waiting, t.target, t.pc)) = some (true, 3, 0x200) := by
  decide
theorem test_tick : ((tickTimers ((State.reset.setDt 0).setSt 5)).dt, (tickTimers ((State.reset.setDt 0).setSt 5)).st) =
    (0, 4) := by decide
theorem test_keyDown_resolves : (resumingState.reg 3, resumingState.waiting, resumingState.target, resumingState.resume,
    resumingState.keyDownNow 7) = (7, false, 0, true, true) := by decide
theorem test_keyUp_does_not_resolve : (keyUp 7 waitingState).waiting = true := by decide
theorem test_tone : tonePlaying (State.reset.setSt 1) = true ∧ tonePlaying State.reset = false := by decide

/-! ### Construction (L2.9) -/

theorem test_reset_glyphs : peek 0x050 5 State.reset = [0xF0, 0x90, 0x90, 0x90, 0xF0] ∧
    peek 0x09B 5 State.reset = [0xF0, 0x80, 0xF0, 0x80, 0x80] := by decide
theorem test_reset_around_the_font : peek 0x04F 1 State.reset = [0] ∧ peek 0x0A0 1 State.reset = [0] := by decide
/-- The values of 00_scope.md R7. -/
theorem test_parameters : (config.numV, config.iWidth, config.pcWidth, config.dispW, config.dispH, config.numKeys,
    config.timerWidth) = (16, 16, 16, 64, 32, 16, 8) ∧ config.tickRate = none := by decide
theorem test_reset_pc : State.reset.pc = 0x200 := by decide

/-! ### Witnesses: the hypotheses of the statements can be met -/

/-- A state that meets the invariant and executes `RET` at 0x300: one active return address. -/
def calledState : State := ((withStack [0x206]).setPc 0x300).withFetchWord 16 0x00EE

theorem witness_DecodeOfEncode : (Instr.sys 0x0E1).wellFormed = true ∧ (Instr.drw 0xF 0xF 0xF).wellFormed = true := by
  decide

theorem witness_EncodeOfDecode : decodeWord 0xFF65 = .ok (.loadRegs 0xF) := rfl

theorem witness_SubDispatched : (fieldOp 0x8ABE = 0x8 ∧ (fieldN 0x8ABE).val = 0xE) ∧
    (fieldOp 0x8AB8 = 0x8 ∧ (fieldN 0x8AB8).val = 0x8) ∧ (fieldOp 0xE09E = 0xE ∧ (fieldKK 0xE09E).toNat = 0x9E) ∧
    (fieldOp 0xE09F = 0xE ∧ (fieldKK 0xE09F).toNat = 0x9F) ∧ (fieldOp 0xF065 = 0xF ∧ (fieldKK 0xF065).toNat = 0x65) ∧
    (fieldOp 0xFFFF = 0xF ∧ (fieldKK 0xFFFF).toNat = 0xFF) := by decide

theorem witness_RemainingFamilies : (fieldOp 0x00E0 = 0 ∧ fieldNNN 0x00E0 = 0x0E0) ∧ (fieldOp 0x00EE = 0 ∧ fieldNNN 0x00EE = 0x0EE) ∧
    (fieldOp 0x0FFF = 0 ∧ fieldNNN 0x0FFF = 0xFFF) ∧ (fieldOp 0x5AB0 = 5 ∧ (fieldN 0x5AB0).val = 0) ∧
    (fieldOp 0x9ABF = 9 ∧ (fieldN 0x9ABF).val = 0xF) ∧ fieldOp 0x1000 = 1 ∧ fieldOp 0xDFFF = 0xD := by decide

theorem witness_DecoderAgreesWithOpcodeTable :
    (∃ r ∈ opcodeTable, r.selects 0x00E0 = true ∧ r.build 0x00E0 = .cls) ∧
    (∀ r ∈ opcodeTable, r.selects 0xFFFF = false) := by
  refine ⟨?_, by decide⟩
  decide

/-- The last address a word can be fetched from. -/
theorem witness_StepRunsTheDecodedInstruction : let s := (poke 0xFFE [0x60, 0x01] State.reset).setPc 0xFFE
    s.waiting = false ∧ s.resume = false ∧ s.pc.toNat ≤ 0xFFE ∧
    decodeWord (wordOfBytes (Memory.read s.mem s.pc.toNat) (Memory.read s.mem (s.pc.toNat + 1))) = .ok (.ldImm 0 1) ∧
    (after (.ldImm 0 1) s).isSome = true := ⟨rfl, rfl, by decide, rfl, rfl⟩

theorem witness_StepInAWait : waitingState.waiting = true := rfl

theorem witness_StepAfterAResolvedWait : resumingState.waiting = false ∧ resumingState.resume = true := by decide

theorem witness_FetchOutsideMemory :
    (0xFFE < (State.reset.setPc 0xFFF).pc.toNat ∧ (State.reset.setPc 0xFFF).waiting = false ∧
      (State.reset.setPc 0xFFF).resume = false) ∧
    (0xFFE < (State.reset.setPc 0x1000).pc.toNat ∧ (State.reset.setPc 0x1000).waiting = false ∧
      (State.reset.setPc 0x1000).resume = false) := by decide

theorem witness_UnrecognizedWord : (placed 0x5121).waiting = false ∧ (placed 0x5121).resume = false ∧
    fetch (placed 0x5121) = .next 0x5121 ∧ decodeWord 0x5121 = .error (.unrecognized 0x5121) := ⟨rfl, rfl, rfl, rfl⟩

theorem witness_PlacedWord : Memory.wf waitingState.mem ∧ Memory.wf (State.reset.setPc 0xFFFF).mem ∧
    decodeWord 0x00E0 = .ok .cls := ⟨by decide, by decide, rfl⟩

theorem witness_JumpToItself : Executes (placed 0x1200) (.jp 0x200) ∧ (placed 0x1200).pc.toNat = (0x200 : Addr12).toNat :=
  ⟨⟨rfl, rfl, 0x1200, rfl, rfl⟩, by decide⟩

theorem calledState_inv : calledState.Inv := by constructor <;> decide
theorem waitingState_inv : waitingState.Inv := by constructor <;> decide
theorem resumingState_inv : resumingState.Inv := by constructor <;> decide

theorem witness_StepKeepsTheInvariant : (calledState.Inv ∧ steps calledState = true) ∧
    (waitingState.Inv ∧ steps waitingState = true) ∧ (resumingState.Inv ∧ steps resumingState = true) :=
  ⟨⟨calledState_inv, by decide⟩, ⟨waitingState_inv, by decide⟩, resumingState_inv, by decide⟩

theorem witness_EveryScheduleKeepsTheInvariant :
    (waitingState.Inv ∧ ∃ t, runSchedule [.tickTimers, .step, .keyDown 7, .step] waitingState = .next t) ∧
    (∃ t, boot [0x60, 0x05] [.step, .keyUp 3, .clearDirty] = .next t) :=
  ⟨⟨waitingState_inv, _, rfl⟩, _, rfl⟩

theorem witness_WrittenByteReadsBack : Memory.wf [] ∧ (∃ m, memWrite [] 0xFFF 7 = .next m) ∧ (∃ m, memWrite [] 0 7 = .next m) ∧
    0xFFF < 0x1000 := ⟨by decide, ⟨_, rfl⟩, ⟨_, rfl⟩, by decide⟩

theorem witness_NoStepChangesTheFont : Memory.wf calledState.mem ∧ inFont 0x050 ∧ inFont 0x09F ∧ steps calledState = true := by
  decide

theorem witness_StraightLine :
    ((after (.ldVxK 3) State.reset).isSome = true ∧ isControlFlow (.ldVxK 3) = false) ∧
    ((after (.drw 0 1 0) State.reset).isSome = true ∧ isControlFlow (.drw 0 1 0) = false) := by decide

theorem witness_OnlyFlagWriters :
    ((after (.ldImm 0xE 1) State.reset).isSome = true ∧ writesFlag (.ldImm 0xE 1) = false ∧
      writesVFAsData (.ldImm 0xE 1) = false) ∧
    ((after (.loadRegs 0xE) State.reset).isSome = true ∧ writesFlag (.loadRegs 0xE) = false ∧
      writesVFAsData (.loadRegs 0xE) = false) ∧
    ((after (.addReg VF VF) State.reset).isSome = true ∧ writesFlag (.addReg VF VF) = true) := by decide

/-- The rules of the whole machine about a step: a state for each instruction they name, at the last address it can reach. -/
theorem witness_StepsTouch :
    (Executes (placed 0xF315) (.ldDtVx 3) ∧ steps (placed 0xF315) = true) ∧
    (Executes (placed 0xF318) (.ldStVx 3) ∧ steps (placed 0xF318) = true) ∧
    (Executes (placed 0x00E0) .cls ∧ steps (placed 0x00E0) = true) ∧
    (Executes (placed 0xD010) (.drw 0 1 0) ∧ steps (placed 0xD010) = true) ∧
    (Executes ((placed 0xFF55).setI 0xFF0) (.storeRegs 0xF) ∧ steps ((placed 0xFF55).setI 0xFF0) = true ∧
      Memory.wf ((placed 0xFF55).setI 0xFF0).mem) ∧
    (Executes ((placed 0xF033).setI 0xFFD) (.ldB 0) ∧ steps ((placed 0xF033).setI 0xFFD) = true ∧
      Memory.wf ((placed 0xF033).setI 0xFFD).mem) ∧
    (Executes (placed 0x2300) (.call 0x300) ∧ steps (placed 0x2300) = true) ∧
    (Executes calledState .ret ∧ steps calledState = true) :=
  ⟨⟨⟨rfl, rfl, 0xF315, rfl, rfl⟩, by decide⟩, ⟨⟨rfl, rfl, 0xF318, rfl, rfl⟩, by decide⟩,
    ⟨⟨rfl, rfl, 0x00E0, rfl, rfl⟩, by decide⟩, ⟨⟨rfl, rfl, 0xD010, rfl, rfl⟩, by decide⟩,
    ⟨⟨rfl, rfl, 0xFF55, rfl, rfl⟩, by decide, by decide⟩, ⟨⟨rfl, rfl, 0xF033, rfl, rfl⟩, by decide, by decide⟩,
    ⟨⟨rfl, rfl, 0x2300, rfl, rfl⟩, by decide⟩, ⟨rfl, rfl, 0x00EE, rfl, rfl⟩, by decide⟩

theorem witness_KeypadWaitTransitions :
    ((∃ t, hostCall .step (placed 0xFF0A) = .next t ∧ t.waiting = true) ∧ (placed 0xFF0A).waiting = false) ∧
    ((∃ t, hostCall (.keyDown 0xF) waitingState = .next t ∧ t.waiting = false) ∧ waitingState.waiting = true) :=
  ⟨⟨⟨_, rfl, rfl⟩, rfl⟩, ⟨_, rfl, rfl⟩, rfl⟩

/-- The clause of the register statements that leaves out VF, at its neighbour. -/
theorem witness_not_the_flag_register : (0xE : RegIdx) ≠ VF := by decide

theorem witness_Shifts : (withReg 2 0x81).reg 2 = (match config.shiftSource with
    | .vx => (withReg 2 0x81).reg 2 | .vy => (withReg 2 0x81).reg 3) ∧ config.shiftSource = .vx := by decide

theorem witness_RandomByteIsMasked : (0xF0 : Byte).getLsbD 3 = false ∧ (0xF0 : Byte).getLsbD 8 = false := by decide

theorem witness_SkipsOnAKey : ((withReg 5 0).reg 5).toNat = (0 : KeyIdx).val ∧
    ((withReg 5 0xF).reg 5).toNat = (0xF : KeyIdx).val ∧ 0xF < ((withReg 5 0x10).reg 5).toNat := by decide

theorem witness_Call : (withStack (List.replicate 15 0x206)).sp < config.stackDepth ∧ fullStack.sp = config.stackDepth := by
  decide

theorem witness_Return : (0 < calledState.sp ∧ calledState.sp ≤ config.stackDepth) ∧
    (0 < fullStack.sp ∧ fullStack.sp ≤ config.stackDepth) ∧ State.reset.sp = 0 := by decide

theorem witness_CallThenReturn : ∃ t, exec (.call 0x300) State.reset = .next t ∧ (t.setPc 0x310).sp = t.sp ∧
    (t.setPc 0x310).stack = t.stack := ⟨_, rfl, rfl, rfl⟩

theorem witness_GlyphLookup : ((withReg 4 0xF).reg 4).toNat ≤ 0xF ∧ 0xF < ((withReg 4 0x10).reg 4).toNat := by decide

/-- The three bytes just below the font, the three just above it, and the last three of memory. -/
theorem witness_BcdStore :
    (InMemory (withI 0x04D 9 0).i.toNat 3 ∧ ClearOfFont (withI 0x04D 9 0).i.toNat 3) ∧
    (InMemory (withI 0x0A0 9 0).i.toNat 3 ∧ ClearOfFont (withI 0x0A0 9 0).i.toNat 3) ∧
    (InMemory (withI 0xFFD 9 0).i.toNat 3 ∧ ClearOfFont (withI 0xFFD 9 0).i.toNat 3) ∧
    Memory.wf (withI 0xFFD 9 0).mem := by
  simp only [InMemory, ClearOfFont]; decide

theorem witness_RegisterBlockStore :
    (InMemory (withI 0x040 9 0).i.toNat 16 ∧ ClearOfFont (withI 0x040 9 0).i.toNat 16) ∧
    (InMemory (withI 0xFF0 9 0).i.toNat 16 ∧ ClearOfFont (withI 0xFF0 9 0).i.toNat 16) ∧
    (InMemory (withI 0xFFF 9 0).i.toNat 1 ∧ ClearOfFont (withI 0xFFF 9 0).i.toNat 1) ∧
    Memory.wf (withI 0xFF0 9 0).mem := by
  simp only [InMemory, ClearOfFont]; decide

theorem witness_RegisterBlockLoad : InMemory (withI 0xFF0 0 0).i.toNat ((0xF : RegIdx).val + 1) ∧
    0xFFF < (withI 0xFF1 0 0).i.toNat + (0xF : RegIdx).val := by
  simp only [InMemory]; decide

theorem witness_TransfersOutsideMemory : 0xFFF < (withI 0xFFE 0 0).i.toNat + 2 ∧
    0xFFF < (withI 0xFF1 0 0).i.toNat + (0xF : RegIdx).val ∧ 0xFFF < (withI 0x1000 0 0).i.toNat + (0 : RegIdx).val ∧
    (0 < (0xF : Count).val ∧ 0xFFF < (withI 0xFF2 0 0).i.toNat + ((0xF : Count).val - 1)) ∧
    (0 < (1 : Count).val ∧ 0xFFF < (withI 0x1000 0 0).i.toNat + ((1 : Count).val - 1)) := by decide

theorem witness_FontWrites :
    (inFont ((withI 0x04E 0 0).i.toNat + 2) ∧ ∀ k, k < 2 → ¬ inFont ((withI 0x04E 0 0).i.toNat + k)) ∧
    (inFont ((withI 0x09F 0 0).i.toNat + 0) ∧ ∀ k, k < 0 → ¬ inFont ((withI 0x09F 0 0).i.toNat + k)) ∧
    (inFont ((withI 0x041 0 0).i.toNat + 15) ∧ ∀ k, k < 15 → ¬ inFont ((withI 0x041 0 0).i.toNat + k)) := by decide

/-- FX65 after FX55 from a state whose registers have changed in between. -/
theorem witness_BlockStoreThenLoad : ∃ t, exec (.storeRegs 1) (withI 0x300 1 2) = .next t ∧
    (t.setReg 0 9).i = (withI 0x300 1 2).i ∧ Memory.wf (withI 0x300 1 2).mem ∧
    ∀ k, k ≤ (1 : RegIdx).val → Memory.read (t.setReg 0 9).mem ((withI 0x300 1 2).i.toNat + k) =
      Memory.read t.mem ((withI 0x300 1 2).i.toNat + k) := ⟨_, rfl, rfl, by decide, fun _ _ => rfl⟩

/-- Fetches from below the stored bytes, among them, across their end, and from the last address there is. -/
theorem witness_StoredBytesAreFetched :
    (∃ t, exec (.storeRegs 0xF) (withI 0x300 0x62 0x23) = .next t ∧ Memory.wf (withI 0x300 0x62 0x23).mem ∧
      ∀ pc ∈ [0x2FF, 0x300, 0x30E, 0x30F], (t.setPc (BitVec.ofNat 16 pc)).mem = t.mem ∧
        (t.setPc (BitVec.ofNat 16 pc)).pc.toNat ≤ 0xFFE) ∧
    (∃ t, exec (.ldB 0) (withI 0xFFD 0x62 0) = .next t ∧ Memory.wf (withI 0xFFD 0x62 0).mem ∧
      (t.setPc 0xFFE).mem = t.mem ∧ (t.setPc 0xFFE).pc.toNat ≤ 0xFFE) :=
  ⟨⟨_, rfl, by decide, by simp⟩, _, rfl, by decide, rfl, by simp⟩

/-- A sprite of one pixel at the far corner, on a blank display. -/
def cornerSprite : State := poke 0xFFF [0x80] (withI 0xFFF 63 31)

/-- The same, with that pixel on. -/
def cornerSpriteOverPixel : State := cornerSprite.setScreen (Screen.blank.setPixel 31 63 true)

/-- A targeted pixel that is off, one that is on, and a pixel that is not targeted. -/
theorem witness_DrawSprite : InMemory cornerSprite.i.toNat (1 : Count).val ∧
    (SpriteTargets cornerSprite 0 1 1 31 63 ∧ cornerSprite.px.pixel 31 63 = false) ∧
    (SpriteTargets cornerSpriteOverPixel 0 1 1 31 63 ∧ cornerSpriteOverPixel.px.pixel 31 63 = true) ∧
    ¬ SpriteTargets cornerSprite 0 1 1 31 0 := by
  refine ⟨by simp only [InMemory]; decide, ⟨⟨0, 0, by decide⟩, by decide⟩, ⟨⟨0, 0, by decide⟩, by decide⟩, ?_⟩
  rintro ⟨r, b, hr, hb, -, hc, hbit⟩
  have hx : (cornerSprite.reg 0).toNat = 63 := by decide
  have hr0 : r = 0 := Nat.lt_one_iff.1 hr
  have hb1 : b = 1 := by
    have hc' : 0 = (63 + b) % 64 := by rw [← hx]; exact hc
    omega
  subst hr0 hb1
  revert hbit
  decide

/-- No collision is possible on a blank display. -/
theorem witness_DrawSprite_no_collision :
    ¬ ∃ row col, SpriteTargets cornerSprite 0 1 1 row col ∧ cornerSprite.px.pixel row col = true := by
  rintro ⟨row, col, -, h⟩
  rw [show cornerSprite.px = Screen.blank from rfl, Screen.blank_pixel] at h
  cases h

/-- The state after a first draw of glyph 0 is itself one to draw in again: x and y are not VF. -/
theorem witness_DrawingTwice : ∃ t, exec (.drw 0 1 5) (withI 0x050 0 0) = .next t ∧ t.i = (withI 0x050 0 0).i ∧
    t.reg 0 = (withI 0x050 0 0).reg 0 ∧ t.reg 1 = (withI 0x050 0 0).reg 1 ∧ t.mem = (withI 0x050 0 0).mem :=
  ⟨_, rfl, rfl, rfl, rfl, rfl⟩

theorem witness_KeyDown : State.reset.waiting = false ∧ waitingState.waiting = true := by decide

theorem witness_WaitEnds : waitingState.waiting = true ∧ waitingState.resume = false ∧
    ∀ j, HostCall.keyDown j ∉ [HostCall.step, .tickTimers, .keyUp 7, .clearDirty, .readFramebuffer, .readSoundTimer, .step] := by
  decide

theorem witness_OnlyClearDirty : ∃ t, hostCall .clearDirty (State.reset.setScreen Screen.blank) = .next t ∧
    (State.reset.setScreen Screen.blank).dirty = true ∧ t.dirty = false := ⟨_, rfl, rfl, rfl⟩

theorem witness_Loader : (List.replicate 0xE00 (0 : Byte)).length ≤ 0xE00 ∧ 0xE00 < (List.replicate 0xE01 (0 : Byte)).length ∧
    Memory.wf State.reset.mem := by
  simp only [List.length_replicate]; decide

theorem witness_ConstructionValues : ¬ inFont 0x04F ∧ ¬ inFont 0x0A0 ∧ (0xFFF ≤ 0xFFF ∧ ¬ inFont 0xFFF) ∧ 79 < 80 ∧
    15 < config.stackDepth := by decide

end Sys2Proof.Tests
end

section
/-! The keypad's wait (spec/10_state.md R36, R37): which step enters it and which host call leaves it. -/

namespace Sys2Proof.Machine

/-- A key-down event ends in Idle whether it found a wait or not (R247). -/
@[simp] theorem keyDown_waiting (k : KeyIdx) (s : State) : (keyDown k s).waiting = false := by
  unfold keyDown
  split
  · simp
  · next hs => simpa using hs

/-- A step keeps the waiting flag, or executes the wait-for-key instruction and enters the wait (R37, R216). -/
theorem step_waiting_cases {s t : State} (h : step s = .next t) :
    t.waiting = s.waiting ∨ ∃ x, Executes s (.ldVxK x) ∧ t = s.enterWait x := by
  rcases step_executes h with ⟨-, rfl⟩ | ⟨-, -, rfl⟩ | ⟨i, hi, hx⟩
  · exact .inl rfl
  · exact .inl s.completeWait_waiting
  · obtain ⟨-, -, -, -, ⟨hw, -⟩ | ⟨x, rfl, ht⟩, -⟩ := exec_writes hx
    · exact .inl hw
    · exact .inr ⟨x, hi, ht⟩

/-- What a host call does to the waiting flag: only a step can set it, only a key-down event can clear it (R37). -/
theorem hostCall_waiting_cases {c : HostCall} {s t : State} (h : hostCall c s = .next t) :
    t.waiting = s.waiting ∨ (c = .step ∧ ∃ x, Executes s (.ldVxK x) ∧ t = s.enterWait x) ∨
    ((∃ k, c = .keyDown k) ∧ t.waiting = false) := by
  cases c with
  | step => exact (step_waiting_cases h).imp_right fun hx => .inl ⟨rfl, hx⟩
  | keyDown k => cases h; exact .inr (.inr ⟨⟨k, rfl⟩, keyDown_waiting k s⟩)
  | tickTimers | keyUp | readFramebuffer | clearDirty | readSoundTimer => cases h; exact .inl rfl

/-- Settles O25, from what each host call does to the waiting flag. -/
theorem keypadWaitTransitions : Obligations.KeypadWaitTransitions := by
  intro c s t h
  rcases hostCall_waiting_cases h with hsame | ⟨rfl, x, hx, rfl⟩ | ⟨hk, hidle⟩
  · rw [hsame]; cases s.waiting <;> simp
  · exact ⟨fun _ _ => ⟨rfl, x, hx, rfl⟩, fun _ hidle => by simp at hidle⟩
  · exact ⟨fun _ hwait => by simp [hidle] at hwait, fun _ _ => hk⟩

end Sys2Proof.Machine
end

section
/-! The conditional skips (spec/41_control_flow.md R124 to R127): one rule for every meaning that answers `skipIf`. -/

namespace Sys2Proof.Machine

/-- A conditional skip changes PC alone, whichever way the condition falls (R10). -/
theorem skipIf_sameBut_pc (s : State) (c : Bool) : SameBut [.pc] s (s.skipIf c) :=
  sameBut_iff.2 (by simp)

/-- An instruction that answers a conditional skip completes, adds 4 to PC where the condition it tests holds and 2 otherwise, and
changes nothing else (R124). -/
theorem completes_of_eq_skipIf {r : Res State} {s : State} {c : Bool} {p : Prop} [Decidable p]
    (hr : r = .next (s.skipIf c)) (hc : c = true ↔ p) :
    ∃ t, r = .next t ∧ t.pc = (if p then s.pc + 4 else s.pc + 2) ∧ SameBut [.pc] s t := by
  refine ⟨s.skipIf c, hr, ?_, skipIf_sameBut_pc s c⟩
  rw [State.skipIf_pc]
  exact if_congr hc rfl rfl

/-- Settles O32: SE Vx, kk and SNE Vx, kk answer `skipIf` of the two comparisons with the immediate. -/
theorem skipsOnAnImmediate : Obligations.SkipsOnAnImmediate := by
  intro x kk s
  have hse : exec (.seImm x kk) s = .next (s.skipIf (s.reg x == kk)) := rfl
  have hsne : exec (.sneImm x kk) s = .next (s.skipIf (s.reg x != kk)) := rfl
  exact ⟨completes_of_eq_skipIf hse beq_iff_eq, completes_of_eq_skipIf hsne bne_iff_ne⟩

/-- Settles O33: SE Vx, Vy and SNE Vx, Vy answer `skipIf` of the two comparisons of the registers. -/
theorem skipsOnTwoRegisters : Obligations.SkipsOnTwoRegisters := by
  intro x y s
  have hse : exec (.seReg x y) s = .next (s.skipIf (s.reg x == s.reg y)) := rfl
  have hsne : exec (.sneReg x y) s = .next (s.skipIf (s.reg x != s.reg y)) := rfl
  exact ⟨completes_of_eq_skipIf hse beq_iff_eq, completes_of_eq_skipIf hsne bne_iff_ne⟩

end Sys2Proof.Machine
end

section
/-! The instructions that write one register and no flag (spec/42_alu.md R140 to R145): one rule for every meaning that answers
`setReg` and `advance`. -/

namespace Sys2Proof.Machine

/-- A register write followed by the advance changes the registers and PC alone (R20, R25). -/
theorem setReg_advance_sameBut (s : State) (x : RegIdx) (w : Byte) : SameBut [.v, .pc] s (s.setReg x w).advance :=
  sameBut_iff.2 (by simp)

/-- Of the registers, a register write followed by the advance changes the one it names alone, VF being no exception (R20). -/
theorem setReg_advance_regsSameBut (s : State) (x : RegIdx) (w : Byte) : RegsSameBut [x] s (s.setReg x w).advance := by
  intro r hr
  have hne : r ≠ x := List.ne_of_not_mem_cons hr
  rw [State.advance_reg, State.setReg_reg, if_neg hne]

/-- An instruction that answers one register write and the advance completes, leaves in that register a value with every property
`p` of the value written, adds 2 to PC, and changes nothing else (R25). -/
theorem completes_of_eq_setReg_advance {r : Res State} {s : State} {x : RegIdx} {w : Byte} (p : Byte → Prop)
    (hr : r = .next (s.setReg x w).advance) (hp : p w) :
    ∃ t, r = .next t ∧ p (t.reg x) ∧ t.pc = s.pc + 2 ∧ RegsSameBut [x] s t ∧ SameBut [.v, .pc] s t := by
  refine ⟨(s.setReg x w).advance, hr, ?_, rfl, setReg_advance_regsSameBut s x w, setReg_advance_sameBut s x w⟩
  rw [State.advance_reg, State.setReg_reg, if_pos rfl]
  exact hp

/-- Settles O26: both instructions answer one register write, the second of the sum modulo 256. -/
theorem immediateLoadAndAdd : Obligations.ImmediateLoadAndAdd := by
  intro x kk s
  have hld : exec (.ldImm x kk) s = .next (s.setReg x kk).advance := rfl
  have hadd : exec (.addImm x kk) s = .next (s.setReg x (sumByte (s.reg x) kk)).advance := rfl
  exact ⟨completes_of_eq_setReg_advance (· = kk) hld rfl,
    completes_of_eq_setReg_advance (·.toNat = ((s.reg x).toNat + kk.toNat) % 256) hadd (sumByte_toNat (s.reg x) kk)⟩

/-- Settles O27: the four instructions answer one register write, of Vy or of a bitwise operation of the two registers as they were
before the write (R147). -/
theorem copyAndBitwise : Obligations.CopyAndBitwise := by
  intro x y s
  have hld : exec (.ldReg x y) s = .next (s.setReg x (s.reg y)).advance := rfl
  have hor : exec (.or x y) s = .next (s.setReg x (s.reg x ||| s.reg y)).advance := rfl
  have hand : exec (.and x y) s = .next (s.setReg x (s.reg x &&& s.reg y)).advance := rfl
  have hxor : exec (.xor x y) s = .next (s.setReg x (s.reg x ^^^ s.reg y)).advance := rfl
  exact ⟨completes_of_eq_setReg_advance (· = s.reg y) hld rfl,
    completes_of_eq_setReg_advance (fun w => ∀ b, w.getLsbD b = ((s.reg x).getLsbD b || (s.reg y).getLsbD b)) hor
      fun _ => BitVec.getLsbD_or,
    completes_of_eq_setReg_advance (fun w => ∀ b, w.getLsbD b = ((s.reg x).getLsbD b && (s.reg y).getLsbD b)) hand
      fun _ => BitVec.getLsbD_and,
    completes_of_eq_setReg_advance (fun w => ∀ b, w.getLsbD b = ((s.reg x).getLsbD b ^^ (s.reg y).getLsbD b)) hxor
      fun _ => BitVec.getLsbD_xor⟩

end Sys2Proof.Machine
end

section
/-! The instructions that set the address register (spec/43_index_memory.md R171 to R173): one rule for every meaning that answers
`setI` and `advance`. -/

namespace Sys2Proof.Machine

/-- A write to I followed by the advance changes I and PC alone (R25). -/
theorem setI_advance_sameBut (s : State) (w : Word) : SameBut [.i, .pc] s (s.setI w).advance :=
  sameBut_iff.2 (by simp)

/-- An instruction that answers a write to I and the advance completes, leaves in I the word written, whose value is `n`, adds 2 to
PC, and changes nothing else (R25). -/
theorem completes_of_eq_setI_advance {r : Res State} {s : State} {w : Word} {n : Nat}
    (hr : r = .next (s.setI w).advance) (hw : w.toNat = n) :
    ∃ t, r = .next t ∧ t.i.toNat = n ∧ t.pc = s.pc + 2 ∧ SameBut [.i, .pc] s t :=
  ⟨(s.setI w).advance, hr, hw, rfl, setI_advance_sameBut s w⟩

/-- Settles O39: LD I, nnn answers a write to I of its literal, zero-extended, which keeps the literal's value. -/
theorem setAddressRegister : Obligations.SetAddressRegister := by
  intro nnn s
  have hld : exec (.ldI nnn) s = .next (s.setI (literalAddr nnn)).advance := rfl
  exact completes_of_eq_setI_advance hld (literalAddr_toNat nnn)

end Sys2Proof.Machine
end

section
/-! The instruction that clears the display (spec/44_display.md R190). -/

namespace Sys2Proof.Machine

/-- A new display followed by the advance changes the pixels, the redraw flag and PC alone (R25, R196). -/
theorem setScreen_advance_sameBut (s : State) (p : Screen) : SameBut [.px, .dirty, .pc] s (s.setScreen p).advance :=
  sameBut_iff.2 (by simp)

/-- Settles O49: CLS answers the blank display, marked dirty, and the advance. -/
theorem clearDisplay : Obligations.ClearDisplay := by
  intro s
  have hcls : exec .cls s = .next (s.setScreen Screen.blank).advance := rfl
  exact ⟨(s.setScreen Screen.blank).advance, hcls, Screen.blank_pixel, rfl, rfl, setScreen_advance_sameBut s Screen.blank⟩

end Sys2Proof.Machine
end

section
/-! The redraw flag (spec/60_exceptions.md R255): which host call can change it, and to what. -/

namespace Sys2Proof.Machine

/-- A step keeps the redraw flag or sets it; it never clears it (R33, R255). -/
theorem step_dirty_cases {s t : State} (h : step s = .next t) : t.dirty = s.dirty ∨ t.dirty = true := by
  rcases step_executes h with ⟨-, rfl⟩ | ⟨-, -, rfl⟩ | ⟨i, -, hx⟩
  · exact .inl rfl
  · exact .inl s.completeWait_dirty
  · obtain ⟨-, -, -, hdisplay, -⟩ := exec_writes hx
    exact hdisplay.imp (fun hkept => hkept.2) (fun hset => hset.2.1)

/-- Whichever way a key-down event finds the wait, it keeps the redraw flag (R247). -/
@[simp] theorem keyDown_dirty (k : KeyIdx) (s : State) : (keyDown k s).dirty = s.dirty := by
  unfold keyDown
  split
  · rw [State.resolveWait_dirty, State.setKey_dirty]
  · exact s.setKey_dirty k true

/-- What a host call does to the redraw flag: only a step can set it, only `clear_dirty()` can clear it (R33, R255). -/
theorem hostCall_dirty_cases {c : HostCall} {s t : State} (h : hostCall c s = .next t) :
    t.dirty = s.dirty ∨ (c = .step ∧ t.dirty = true) ∨ (c = .clearDirty ∧ t.dirty = false) := by
  cases c with
  | step => exact (step_dirty_cases h).imp_right fun hset => .inl ⟨rfl, hset⟩
  | keyDown k => cases h; exact .inl (keyDown_dirty k s)
  | clearDirty => cases h; exact .inr (.inr ⟨rfl, clearDirty_dirty s⟩)
  | tickTimers | keyUp | readFramebuffer | readSoundTimer => cases h; exact .inl rfl

/-- Clearing the redraw flag changes the redraw flag alone (R255). -/
theorem clearDirty_sameBut (s : State) : SameBut [.dirty] s (clearDirty s) :=
  sameBut_iff.2 (by simp)

/-- Settles O58, from what each host call does to the redraw flag. -/
theorem onlyClearDirtyClearsTheFlag : Obligations.OnlyClearDirtyClearsTheFlag := by
  refine ⟨fun s => ⟨clearDirty s, rfl, clearDirty_dirty s, clearDirty_sameBut s⟩, ?_⟩
  intro c s t h hset hclear
  rcases hostCall_dirty_cases h with hsame | ⟨-, hstep⟩ | ⟨hc, -⟩
  · simp [hsame, hset] at hclear
  · simp [hstep] at hclear
  · exact hc

end Sys2Proof.Machine
end

section
/-! The timer clock (spec/60_exceptions.md R245). -/

namespace Sys2Proof.Machine

/-- A counter's tick takes its value down by one, clamped at zero as the subtraction of naturals is (R245). -/
@[simp] theorem tickCounter_toNat (c : Byte) : (tickCounter c).toNat = c.toNat - 1 := by
  unfold tickCounter
  split
  · next hpos => exact BitVec.toNat_sub_of_le (BitVec.le_def.2 hpos)
  · next hzero => omega

/-- A tick changes the two counters alone (R245). -/
theorem tickTimers_sameBut (s : State) : SameBut [.dt, .st] s (tickTimers s) :=
  sameBut_iff.2 (by simp)

/-- Settles O54: both counters tick, and a tick is a subtraction clamped at zero. -/
theorem tickDecrementsBothTimers : Obligations.TickDecrementsBothTimers := fun s =>
  ⟨tickTimers s, rfl, tickCounter_toNat s.dt, tickCounter_toNat s.st, tickTimers_sameBut s⟩

end Sys2Proof.Machine
end

section
/-! The key-up event (spec/60_exceptions.md R248). -/

namespace Sys2Proof.Machine

/-- A key write changes the key states alone (R35). -/
theorem setKey_sameBut (s : State) (k : KeyIdx) (c : Bool) : SameBut [.key] s (s.setKey k c) :=
  sameBut_iff.2 (by simp)

/-- Settles O56: a key-up is one key write, and a key write leaves every other key as it was. -/
theorem keyUpClearsTheKey : Obligations.KeyUpClearsTheKey := by
  intro k s
  have hup : hostCall (.keyUp k) s = .next (s.setKey k false) := rfl
  refine ⟨s.setKey k false, hup, ?_, fun j hj => ?_, setKey_sameBut s k false⟩
  · rw [State.setKey_keyDownNow, if_pos rfl]
  · rw [State.setKey_keyDownNow, if_neg hj]

end Sys2Proof.Machine
end

section
/-! The decoder reads back every encoding (spec/30_encoding.md R71 to R85): what each family's decoder makes of the shape its rows
have. -/

namespace Sys2Proof

/-- R76: the literals of SYS are all but the two of CLS and RET. -/
theorem sysLiteralOk_iff {nnn : Addr12} : sysLiteralOk nnn = true ↔ nnn ≠ 0x0E0 ∧ nnn ≠ 0x0EE := by
  simp only [sysLiteralOk, Bool.and_eq_true, bne_iff_ne]

/-- R76: a literal a SYS may have decodes to that SYS, since CLS and RET take the two literals it may not have. -/
theorem decodeFamily0_of_sysLiteralOk {w : Word} (h : sysLiteralOk (fieldNNN w) = true) :
    decodeFamily0 w = .ok (.sys (fieldNNN w)) := by
  obtain ⟨hcls, hret⟩ := sysLiteralOk_iff.1 h
  unfold decodeFamily0
  split
  · next hv => exact absurd (BitVec.eq_of_toNat_eq hv) hcls
  · next hv => exact absurd (BitVec.eq_of_toNat_eq hv) hret
  · rfl

/-- R71 to R85: decoding the word of a well-formed instruction gives it back. -/
theorem decodeWord_encode {i : Instr} (h : i.wellFormed = true) : decodeWord (encode i) = .ok i := by
  cases i with
  | cls | ret => rfl
  | sys nnn =>
    have hnnn : fieldNNN (encNNN 0 nnn) = nnn := fieldNNN_encNNN (by decide) nnn
    have hsys := decodeFamily0_of_sysLiteralOk (w := encNNN 0 nnn) (by rwa [hnnn])
    simpa [encode, decodeWord, fieldOp_encNNN, hnnn] using hsys
  | jp nnn | call nnn | ldI nnn | jpV0 nnn => simp [encode, decodeWord, fieldOp_encNNN, fieldNNN_encNNN]
  | seImm x kk | sneImm x kk | ldImm x kk | addImm x kk | rnd x kk =>
    simp [encode, decodeWord, fieldOp_encXKK, fieldX_encXKK, fieldKK_encXKK, kk.isLt]
  | skp x | sknp x => simp [encode, decodeWord, decodeFamilyE, fieldOp_encXKK, fieldX_encXKK, fieldKK_encXKK]
  | ldVxDt x | ldVxK x | ldDtVx x | ldStVx x | addI x | ldF x | ldB x | storeRegs x | loadRegs x =>
    simp [encode, decodeWord, decodeFamilyF, fieldOp_encXKK, fieldX_encXKK, fieldKK_encXKK]
  | ldReg x y | or x y | and x y | xor x y | addReg x y | sub x y | shr x y | subn x y | shl x y =>
    simp [encode, decodeWord, decodeFamily8, fieldOp_encXYN, fieldX_encXYN, fieldY_encXYN, fieldN_encXYN]
  | seReg x y | sneReg x y =>
    simp [encode, decodeWord, decodeNibble0, fieldOp_encXYN, fieldX_encXYN, fieldY_encXYN, fieldN_encXYN]
  | drw x y n =>
    simp [encode, decodeWord, fieldOp_encXYN, fieldX_encXYN, fieldY_encXYN, fieldN_encXYN]

/-- R58, R70: the two bytes of a word that decodes, before any others, decode to the same instruction and leave the others. -/
theorem decodeBytes_bytesOfWord {w : Word} {i : Instr} (h : decodeWord w = .ok i) (rest : List Byte) :
    decodeBytes (bytesOfWord w ++ rest) = .ok (i, rest) := by
  simp only [bytesOfWord, List.cons_append, List.nil_append, decodeBytes, wordOfBytes_bytesOfWord, h]

/-- Settles O1: decoding inverts encoding on words, and an instruction's bytes are those of its word. -/
theorem decodeOfEncodeIsTheInstruction : Obligations.DecodeOfEncodeIsTheInstruction := fun _ hwf =>
  have hword := decodeWord_encode hwf
  ⟨hword, decodeBytes_bytesOfWord hword⟩

end Sys2Proof
end

section
/-! The registers after a block load (spec/43_index_memory.md R177). -/

namespace Sys2Proof.Machine

/-- The state LD Vx, [I] leaves, before the advance: the bytes from I on in V0 to Vx (R177). -/
def State.loadBlock (s : State) (x : RegIdx) : State :=
  s.setRegs (putRegs s.v 0 ((List.range (x.val + 1)).map fun k => Memory.read s.mem (s.i.toNat + k)))

/-- R177: a block load completes exactly where its bytes exist, and answers the loaded registers and the advance. -/
theorem execLoadRegs_eq_next_loadBlock {x : RegIdx} {s t : State} :
    execLoadRegs x s = .next t ↔ (∀ k, k < x.val + 1 → s.i.toNat + k < 0x1000) ∧ t = (s.loadBlock x).advance :=
  execLoadRegs_eq_next

/-- R177: a block load puts the byte at I + r in register r for the registers up to x, and leaves the others. -/
@[simp] theorem State.loadBlock_reg (s : State) (x r : RegIdx) :
    (s.loadBlock x).reg r = if r ≤ x then Memory.read s.mem (s.i.toNat + r.val) else s.reg r := by
  rw [State.loadBlock, State.setRegs_putRegs_reg, List.length_map, List.length_range]
  by_cases hr : r ≤ x
  · have hlt : r.val < x.val + 1 := Nat.lt_succ_of_le hr
    rw [if_pos hlt, if_pos hr]
    simp [List.getD_eq_getElem?_getD, hlt]
  · rw [if_neg fun hlt => hr (Nat.le_of_lt_succ hlt), if_neg hr]

end Sys2Proof.Machine
end

section
/-! What an instruction leaves in PC and in VF (spec/10_state.md R21, R22, R25), said once for all of them. -/

namespace Sys2Proof.Machine

/-- Where an instruction that gives the next state `t` can leave PC. -/
inductive PcMove (i : Instr) (s t : State) : Prop
  /-- Two further on (R106). -/
  | next (h : t.pc = s.pc + 2)
  /-- Four further on, by a skip (R124). -/
  | skip (hi : isControlFlow i = true) (h : t.pc = s.pc + 4)
  /-- In place, for the wait for a key (R216). -/
  | wait (x : RegIdx) (hi : i = .ldVxK x) (h : t.pc = s.pc)
  /-- At a literal (R122, R123). -/
  | jump (hi : isControlFlow i = true) (nnn : Addr12) (h : t.pc = literalAddr nnn)
  /-- At a literal plus V0 (R128). -/
  | jumpV0 (hi : isControlFlow i = true) (nnn : Addr12) (h : t.pc = literalAddr nnn + byteAsWord (s.reg 0))
  /-- At the slot RET pops (R121). -/
  | ret (hi : isControlFlow i = true) (hsp : 0 < s.sp) (h : t.pc = s.stackSlot (s.sp - 1))

/-- What an instruction that gives the next state `t` can leave in VF. -/
inductive VFMove (i : Instr) (s t : State) : Prop
  /-- The old value (R21). -/
  | kept (hi : writesFlag i = false) (h : t.reg VF = s.reg VF)
  /-- The data that the instruction names VF for (R21). -/
  | data (hi : writesFlag i = false) (h : writesVFAsData i = true)
  /-- A flag (R22). -/
  | flag (hi : writesFlag i = true) (c : Bool) (h : t.reg VF = flagByte c)

/-- A conditional skip moves PC two or four further on (R124). -/
theorem PcMove.of_skipIf {i : Instr} (hi : isControlFlow i = true) (s : State) (c : Bool) : PcMove i s (s.skipIf c) := by
  cases c
  · exact .next rfl
  · exact .skip hi rfl

/-- A register write leaves VF, or has VF for its register (R20). -/
theorem VFMove.of_setReg {i : Instr} {s s' : State} {x : RegIdx} {w : Byte} (hs : s'.reg VF = s.reg VF)
    (hi : writesFlag i = false) (hx : writesVFAsData i = (x == VF)) : VFMove i s (s'.setReg x w).advance := by
  by_cases h : x = VF
  · exact .data hi (by simp [hx, h])
  · exact .kept hi (by simp [Ne.symm h, hs])

/-- Every instruction moves PC and VF in one of the ways named. -/
theorem exec_moves {s t : State} {i : Instr} (h : exec i s = .next t) : PcMove i s t ∧ VFMove i s t := by
  cases i with
  | cls | sys | addI | ldI | ldDtVx | ldStVx => cases h; exact ⟨.next rfl, .kept rfl rfl⟩
  | ldImm | addImm | ldReg | or | and | xor | ldVxDt | rnd => cases h; exact ⟨.next rfl, .of_setReg rfl rfl rfl⟩
  | addReg | sub | shr | subn | shl => cases h; exact ⟨.next rfl, .flag rfl _ (State.setRegFlag_reg ..)⟩
  | ldVxK x => cases h; exact ⟨.wait x rfl rfl, .kept rfl rfl⟩
  | seImm | sneImm | seReg | sneReg => cases h; exact ⟨.of_skipIf rfl _ _, .kept rfl (State.skipIf_reg ..)⟩
  | skp =>
    obtain ⟨k, -, rfl⟩ := execSkp_eq_next.1 h
    exact ⟨.of_skipIf rfl _ _, .kept rfl (State.skipIf_reg ..)⟩
  | sknp =>
    obtain ⟨k, -, rfl⟩ := execSknp_eq_next.1 h
    exact ⟨.of_skipIf rfl _ _, .kept rfl (State.skipIf_reg ..)⟩
  | jp nnn => cases h; exact ⟨.jump rfl nnn rfl, .kept rfl rfl⟩
  | jpV0 nnn => cases h; exact ⟨.jumpV0 rfl nnn rfl, .kept rfl rfl⟩
  | call nnn =>
    obtain ⟨-, rfl⟩ := execCall_eq_next.1 h
    exact ⟨.jump rfl nnn rfl, .kept rfl rfl⟩
  | ret =>
    obtain ⟨hsp, rfl⟩ := execRet_eq_next.1 h
    exact ⟨.ret rfl hsp rfl, .kept rfl rfl⟩
  | drw =>
    obtain ⟨-, rfl⟩ := execDrw_eq_next.1 h
    exact ⟨.next rfl, .flag rfl _ (State.setFlag_reg ..)⟩
  | ldF =>
    obtain ⟨-, rfl⟩ := execLdF_eq_next.1 h
    exact ⟨.next rfl, .kept rfl rfl⟩
  | ldB =>
    obtain ⟨m, -, rfl⟩ := execLdB_eq_next.1 h
    exact ⟨.next rfl, .kept rfl rfl⟩
  | storeRegs =>
    obtain ⟨m, -, rfl⟩ := execStoreRegs_eq_next.1 h
    exact ⟨.next rfl, .kept rfl rfl⟩
  | loadRegs x =>
    obtain ⟨-, rfl⟩ := execLoadRegs_eq_next_loadBlock.1 h
    refine ⟨.next rfl, ?_⟩
    by_cases hx : x = VF
    · exact .data rfl (beq_iff_eq.2 hx)
    · have hlt : ¬ VF ≤ x := fun hle => hx (Fin.ext (Nat.le_antisymm (Nat.le_of_lt_succ x.isLt) hle))
      exact .kept rfl (by rw [State.advance_reg, State.loadBlock_reg, if_neg hlt])

/-- Settles O19: of the ways PC moves, an instruction that is not control flow has the advance and the wait alone. -/
theorem straightLineInstructionsAdvancePcByTwo : Obligations.StraightLineInstructionsAdvancePcByTwo := by
  intro i s t h hi
  constructor
  · rintro ⟨x, rfl⟩
    cases h
    rfl
  · intro hnot
    cases (exec_moves h).1 with
    | next hpc => exact hpc
    | wait x hx => exact absurd ⟨x, hx⟩ hnot
    | skip hflow | jump hflow | jumpV0 hflow | ret hflow => simp [hi] at hflow

/-- Settles O20: the three ways VF moves. -/
theorem onlyFlagWritersTouchVF : Obligations.OnlyFlagWritersTouchVF := by
  intro i s t h
  cases (exec_moves h).2 with
  | kept hi hsame => exact ⟨fun _ _ => hsame, fun hflag => by simp [hi] at hflag⟩
  | data hi hdata => exact ⟨fun _ hno => by simp [hdata] at hno, fun hflag => by simp [hi] at hflag⟩
  | flag hi c hset =>
    refine ⟨fun hno => by simp [hi] at hno, fun _ => ?_⟩
    rw [hset]
    cases c
    · exact .inl rfl
    · exact .inr rfl

end Sys2Proof.Machine
end

section
/-! The machine's invariant (spec/10_state.md): it holds at construction, and every step and every host call keeps it. -/

namespace Sys2Proof.Machine

/-- R42: a byte of the font region at construction is the font table's. -/
theorem resetByte_font {k : Nat} (hk : k < Config.fontSize) :
    resetByte (config.fontBase + k) = config.fontTable.getD k 0 := by
  rw [resetByte, if_pos ⟨Nat.le_add_right _ _, Nat.add_lt_add_left hk _⟩, Nat.add_sub_cancel_left]

/-- Settles O14: construction lists no byte, so the font region holds the table; the other clauses are bounds on zeros. -/
theorem resetMeetsTheInvariant : Obligations.ResetMeetsTheInvariant where
  mem_wf := Memory.wf_nil
  font_intact _ hk := resetByte_font hk
  sp_le := by decide
  pc_le := by decide
  stack_le _ hj := absurd hj (Nat.not_lt_zero _)
  wait_pc := by decide
  resume_idle := by decide
  target_idle _ := rfl

/-- Memory that is canonical and reads the old font bytes keeps the font table in place (R57). -/
theorem State.Inv.font_of_same {s : State} (hs : s.Inv) {m : Memory}
    (h : ∀ a, inFont a → Memory.read m a = Memory.read s.mem a) :
    ∀ k, k < Config.fontSize → Memory.read m (config.fontBase + k) = config.fontTable.getD k 0 := fun k hk =>
  (h _ ⟨Nat.le_add_right _ _, Nat.add_lt_add_left hk _⟩).trans (hs.font_intact k hk)

/-- A state that differs from one of the invariant only in registers, I, timers, display and keys meets it. -/
theorem State.Inv.congr {s t : State} (hs : s.Inv) (hmem : t.mem = s.mem) (hsp : t.sp = s.sp) (hstack : t.stack = s.stack)
    (hpc : t.pc = s.pc) (hwait : t.waiting = s.waiting) (htarget : t.target = s.target) (hres : t.resume = s.resume) :
    t.Inv where
  mem_wf := hmem ▸ hs.mem_wf
  font_intact := hmem ▸ hs.font_intact
  sp_le := hsp ▸ hs.sp_le
  pc_le := hpc ▸ hs.pc_le
  stack_le j hj := by rw [State.stackSlot_congr hstack]; exact hs.stack_le j (hsp ▸ hj)
  wait_pc h := by rw [hpc]; exact hs.wait_pc (by rwa [hwait, hres] at h)
  resume_idle h := by rw [hwait]; exact hs.resume_idle (hres ▸ h)
  target_idle h := by rw [htarget]; exact hs.target_idle (hwait ▸ h)

/-- R104: completing a wait keeps the invariant: PC was at a fetched FX0A, so two further on is still within bounds. -/
theorem State.Inv.completeWait {s : State} (hs : s.Inv) (hw : s.waiting = false) (hr : s.resume = true) :
    s.completeWait.Inv where
  mem_wf := hs.mem_wf
  font_intact := hs.font_intact
  sp_le := hs.sp_le
  pc_le := by
    have hpc := hs.wait_pc (.inr hr)
    have hadd : s.completeWait.pc.toNat = (s.pc.toNat + 2) % 65536 := BitVec.toNat_add ..
    omega
  stack_le := hs.stack_le
  wait_pc h := by simp [hw] at h
  resume_idle h := by simp at h
  target_idle := hs.target_idle

/-- R27: an instruction fetched at PC leaves PC at most 0x10FE. -/
theorem PcMove.pc_le {i : Instr} {s t : State} (h : PcMove i s t) (hs : s.Inv) (hpc : s.pc.toNat ≤ 0xFFE) :
    t.pc.toNat ≤ 0x10FE := by
  cases h with
  | next h =>
    have hadd : t.pc.toNat = (s.pc.toNat + 2) % 65536 := by rw [h]; exact BitVec.toNat_add ..
    omega
  | skip _ h =>
    have hadd : t.pc.toNat = (s.pc.toNat + 4) % 65536 := by rw [h]; exact BitVec.toNat_add ..
    omega
  | wait _ _ h => rw [h]; omega
  | jump _ nnn h =>
    have := nnn.isLt
    rw [h, literalAddr_toNat]
    omega
  | jumpV0 _ nnn h =>
    have := nnn.isLt
    have := (s.reg 0).isLt
    rw [h, jumpOffset_toNat]
    omega
  | ret _ hsp h =>
    have := hs.stack_le (s.sp - 1) (by omega)
    rw [h]
    omega

/-- R28, R121: an instruction fetched at PC keeps SP within the stack and every active return address at most 0x1000: a CALL pushes
PC + 2, a RET only lowers SP. -/
theorem exec_keeps_stack_bounds {i : Instr} {s t : State} (hs : s.Inv) (hpc : s.pc.toNat ≤ 0xFFE) (h : exec i s = .next t) :
    t.sp ≤ config.stackDepth ∧ ∀ j, j < t.sp → (t.stackSlot j).toNat ≤ 0x1000 := by
  obtain ⟨-, -, -, -, -, -, -, -, ⟨hsp, hstack⟩ | ⟨nnn, -, hfull, rfl⟩ | ⟨-, -, rfl⟩⟩ := exec_writes h
  · rw [hsp]
    exact ⟨hs.sp_le, fun j hj => by rw [State.stackSlot_congr hstack]; exact hs.stack_le j hj⟩
  · refine ⟨hfull, fun j hj => ?_⟩
    have hj : j < s.sp + 1 := hj
    rw [State.setPc_stackSlot, State.pushSlot_stackSlot _ _ _ hfull]
    split
    · have hadd : (s.pc + 2).toNat = (s.pc.toNat + 2) % 65536 := BitVec.toNat_add ..
      omega
    · exact hs.stack_le j (by omega)
  · have hle := hs.sp_le
    simp only [State.setPc_sp, State.setSp_sp, State.setPc_stackSlot, State.setSp_stackSlot]
    exact ⟨by omega, fun j hj => hs.stack_le j (by omega)⟩

/-- An instruction fetched at PC, with neither a wait nor a resume pending, keeps the invariant. -/
theorem State.Inv.exec {i : Instr} {s t : State} (hs : s.Inv) (hpc : s.pc.toNat ≤ 0xFFE) (hw : s.waiting = false)
    (hr : s.resume = false) (h : exec i s = .next t) : t.Inv := by
  obtain ⟨hmem, hfont⟩ := exec_keeps_mem_wf hs.mem_wf h
  obtain ⟨hsp, hstack⟩ := exec_keeps_stack_bounds hs hpc h
  obtain ⟨-, -, -, -, hwait, -, hres, -, -⟩ := exec_writes h
  have hres : t.resume = false := hres.trans hr
  refine ⟨hmem, hs.font_of_same hfont, hsp, (exec_moves h).1.pc_le hs hpc, hstack, ?_, ?_, ?_⟩
  · rintro (hwaiting | hresume)
    · rcases hwait with ⟨hsame, -⟩ | ⟨x, -, rfl⟩
      · simp [hsame, hw] at hwaiting
      · exact hpc
    · simp [hres] at hresume
  · intro hresume
    simp [hres] at hresume
  · intro hidle
    rcases hwait with ⟨-, htarget⟩ | ⟨x, -, rfl⟩
    · rw [htarget]; exact hs.target_idle hw
    · simp at hidle

/-- Settles O15: a wait keeps the state, the completion of a wait and an executed instruction keep the invariant. -/
theorem stepKeepsTheInvariant : Obligations.StepKeepsTheInvariant := by
  intro s t hs h
  rcases step_cases h with ⟨-, rfl⟩ | ⟨hw, hr, rfl⟩ | ⟨hw, hr, w, i, hfetch, -, hexec⟩
  · exact hs
  · exact hs.completeWait hw hr
  · obtain ⟨hpc, -⟩ := fetch_eq_next.1 hfetch
    exact hs.exec (by omega) hw hr hexec

/-- R247: a key-down keeps the invariant: a wait it resolves leaves PC at the FX0A and an idle keypad with target 0. -/
theorem State.Inv.keyDown {s : State} (hs : s.Inv) (k : KeyIdx) : (keyDown k s).Inv := by
  unfold Machine.keyDown
  split
  · next hw =>
    exact ⟨hs.mem_wf, hs.font_intact, hs.sp_le, hs.pc_le, hs.stack_le, fun _ => hs.wait_pc (.inl hw), fun _ => rfl, fun _ => rfl⟩
  · exact hs.congr rfl rfl rfl rfl rfl rfl rfl

/-- R258: every host call keeps the invariant. -/
theorem State.Inv.hostCall {c : HostCall} {s t : State} (hs : s.Inv) (h : hostCall c s = .next t) : t.Inv := by
  cases c with
  | step => exact stepKeepsTheInvariant s t hs h
  | keyDown k => cases h; exact hs.keyDown k
  | readFramebuffer | readSoundTimer => cases h; exact hs
  | tickTimers | keyUp | clearDirty => cases h; exact hs.congr rfl rfl rfl rfl rfl rfl rfl

/-- R258: every schedule keeps the invariant. -/
theorem State.Inv.runSchedule {cs : List HostCall} : ∀ {s t : State}, s.Inv → runSchedule cs s = .next t → t.Inv := by
  induction cs with
  | nil => intro s t hs h; cases h; exact hs
  | cons c cs ih =>
    intro s t hs h
    obtain ⟨u, hcall, hrest⟩ := thenDo_eq_next.1 h
    exact ih (hs.hostCall hcall) hrest

/-- R250: the loader keeps the invariant, whatever the image: it writes memory alone, and no font byte. -/
theorem State.Inv.load {image : List Byte} {s t : State} (hs : s.Inv) (h : load image s = .next t) : t.Inv := by
  obtain ⟨m, hm, ht⟩ := thenDo_eq_next.1 h
  cases ht
  exact ⟨writeBytes_wf hs.mem_wf hm, hs.font_of_same fun _ ha => writeBytes_read_font hs.mem_wf hm ha, hs.sp_le, hs.pc_le,
    hs.stack_le, hs.wait_pc, hs.resume_idle, hs.target_idle⟩

/-- Settles O16: by induction on the schedule; a boot is the loader from construction and then a schedule. -/
theorem everyScheduleKeepsTheInvariant : Obligations.EveryScheduleKeepsTheInvariant := by
  refine ⟨fun cs s t hs h => hs.runSchedule h, fun image cs t h => ?_⟩
  obtain ⟨u, hload, hrun⟩ := thenDo_eq_next.1 h
  exact (resetMeetsTheInvariant.load hload).runSchedule hrun

end Sys2Proof.Machine
end

section
/-! The wait for a key (spec/45_timer_keypad.md R216, spec/60_exceptions.md R247): what enters it, what it outlasts, what ends it. -/

namespace Sys2Proof.Machine

/-- Entering the wait changes the waiting flag and the target alone (R216). -/
theorem enterWait_sameBut (s : State) (x : RegIdx) : SameBut [.waiting, .target] s (s.enterWait x) :=
  sameBut_iff.2 (by simp)

/-- Settles O53: LD Vx, K answers the entered wait, without the advance. -/
theorem waitForKeyEntersTheWait : Obligations.WaitForKeyEntersTheWait := fun x s =>
  ⟨s.enterWait x, rfl, rfl, rfl, rfl, enterWait_sameBut s x⟩

/-- A key-down in a wait resolves it (R247). -/
theorem keyDown_of_waiting {s : State} (h : s.waiting = true) (k : KeyIdx) :
    keyDown k s = (s.setKey k true).resolveWait k := if_pos h

/-- A key-down outside a wait records the key alone (R247). -/
theorem keyDown_of_idle {s : State} (h : s.waiting = false) (k : KeyIdx) : keyDown k s = s.setKey k true :=
  if_neg (by simp [h])

/-- A key-down records the key's state and no other key's, whether it found a wait or not (R247). -/
@[simp] theorem keyDown_keyDownNow (s : State) (k j : KeyIdx) :
    (keyDown k s).keyDownNow j = if j = k then true else s.keyDownNow j := by
  rw [← State.setKey_keyDownNow]
  unfold keyDown
  split <;> rfl

/-- R247: of the registers, a key-down in a wait changes the target register alone, to the key's value. -/
theorem keyDown_reg {s : State} (h : s.waiting = true) (k : KeyIdx) (r : RegIdx) :
    (keyDown k s).reg r = if r = s.target then BitVec.ofNat 8 k.val else s.reg r := by
  rw [keyDown_of_waiting h, State.resolveWait_reg, State.setKey_target, State.setKey_reg]

/-- A key's value fits a register (R35). -/
theorem keyValue_toNat (k : KeyIdx) : (BitVec.ofNat 8 k.val).toNat = k.val := by
  have := k.isLt
  simp only [BitVec.toNat_ofNat]
  omega

/-- Settles O55: the key's state is written in any case, and a wait is resolved. -/
theorem keyDownRecordsAndResolves : Obligations.KeyDownRecordsAndResolves := by
  intro k s
  refine ⟨keyDown k s, rfl, by simp, fun j hj => by simp [hj], fun hidle => ?_, fun hwait => ?_⟩
  · rw [keyDown_of_idle hidle]
    exact setKey_sameBut s k true
  · refine ⟨by rw [keyDown_reg hwait, if_pos rfl, keyValue_toNat], ?_⟩
    have hregs : RegsSameBut [s.target] s (keyDown k s) := fun r hr => by
      rw [keyDown_reg hwait, if_neg (List.ne_of_not_mem_cons hr)]
    rw [keyDown_of_waiting hwait] at hregs ⊢
    exact ⟨rfl, rfl, rfl, hregs, sameBut_iff.2 (by simp)⟩

/-- A frame goes across two runs one after the other. -/
theorem SameBut.trans {l : List Part} {s t u : State} (h : SameBut l s t) (h' : SameBut l t u) : SameBut l s u := by
  intro p hp
  have hst := h p hp
  have htu := h' p hp
  cases p with
  | mem | v => exact fun a => (htu a).trans (hst a)
  | _ => exact Eq.trans htu hst

/-- In a wait every host call but a key-down completes and changes timers, redraw flag and key states at most (R101, R217). -/
theorem hostCall_waiting_completes {c : HostCall} {s : State} (hw : s.waiting = true) (hc : ∀ k, c ≠ .keyDown k) :
    ∃ t, hostCall c s = .next t ∧ SameBut [.dt, .st, .dirty, .key] s t := by
  cases c with
  | step => exact ⟨s, step_waiting hw, sameBut_iff.2 (by simp)⟩
  | keyDown k => exact absurd rfl (hc k)
  | tickTimers | keyUp | clearDirty | readFramebuffer | readSoundTimer => exact ⟨_, rfl, sameBut_iff.2 (by simp [keyUp])⟩

/-- A wait outlasts every schedule without a key-down (R216, R261). -/
theorem runSchedule_waiting_completes {cs : List HostCall} : ∀ {s : State}, s.waiting = true →
    (∀ k, HostCall.keyDown k ∉ cs) → ∃ t, runSchedule cs s = .next t ∧ SameBut [.dt, .st, .dirty, .key] s t := by
  induction cs with
  | nil => intro s _ _; exact ⟨s, rfl, sameBut_iff.2 (by simp)⟩
  | cons c cs ih =>
    intro s hw hc
    obtain ⟨t, hcall, hst⟩ := hostCall_waiting_completes (c := c) hw fun k hk => hc k (by simp [hk])
    have hwt : t.waiting = true := (hst .waiting (by simp)).trans hw
    obtain ⟨u, hrun, htu⟩ := ih hwt fun k hk => hc k (List.mem_cons_of_mem c hk)
    exact ⟨u, by rw [runSchedule, hcall, thenDo_next, hrun], hst.trans htu⟩

/-- R104, R247: in a wait, a key-down and one step give the resolved and completed wait. -/
theorem runSchedule_keyDown_step {s : State} (hw : s.waiting = true) (k : KeyIdx) :
    runSchedule [.keyDown k, .step] s = .next (keyDown k s).completeWait := by
  have hres : (keyDown k s).resume = true := by rw [keyDown_of_waiting hw, State.resolveWait_resume]
  simp only [runSchedule, hostCall, thenDo_next, step_resume (keyDown_waiting k s) hres]

/-- Settles O57: the wait outlasts the schedule, so the key-down finds the registers, PC and target as they were. -/
theorem waitEndsOnlyByAKeyDown : Obligations.WaitEndsOnlyByAKeyDown := by
  intro cs s k hw _ hc
  obtain ⟨t, hrun, hst⟩ := runSchedule_waiting_completes hw hc
  have hwt : t.waiting = true := (hst .waiting (by simp)).trans hw
  have htarget : t.target = s.target := hst .target (by simp)
  have hpc : t.pc = s.pc := hst .pc (by simp)
  have hreg : ∀ r, t.reg r = s.reg r := hst .v (by simp)
  refine ⟨t, hrun, hst, (keyDown k t).completeWait, ?_, ?_, ?_, ?_, rfl, fun r hr => ?_⟩
  · rw [runSchedule_append, hrun, thenDo_next, runSchedule_keyDown_step hwt]
  · rw [State.completeWait_reg, keyDown_reg hwt, htarget, if_pos rfl, keyValue_toNat]
  · rw [State.completeWait_pc, keyDown_of_waiting hwt, State.resolveWait_pc, State.setKey_pc, hpc]
  · rw [State.completeWait_waiting, keyDown_waiting]
  · rw [State.completeWait_reg, keyDown_reg hwt, htarget, if_neg (List.ne_of_not_mem_cons hr), hreg]

end Sys2Proof.Machine
end

section
/-! The step cycle (spec/40_step_cycle.md R100 to R112): what a step does and reports in each of its cases. -/

namespace Sys2Proof.Machine

/-- R105: a step that executes an instruction is exec of it. -/
theorem step_of_executes {s : State} {i : Instr} (h : Executes s i) : step s = exec i s := by
  obtain ⟨hw, hr, w, hfetch, hdecode⟩ := h
  rw [step_fetching hw hr, hfetch, thenDo_next, dropReport_runWord_ok hdecode]

/-- R107: a step that executes an instruction reports it. -/
theorem stepReport_of_executes {s t : State} {i : Instr} (h : Executes s i) (hexec : exec i s = .next t) :
    stepReport s = .next (t, .executed i) := by
  obtain ⟨hw, hr, w, hfetch, hdecode⟩ := h
  simp [stepReport, hw, hr, hfetch, runWord, hdecode, execReporting, hexec]

/-- R102, R103: where the two bytes at PC exist and decode, the next step executes the instruction. -/
theorem executes_of_decodes {s : State} {i : Instr} (hw : s.waiting = false) (hr : s.resume = false)
    (hpc : s.pc.toNat ≤ 0xFFE)
    (h : decodeWord (wordOfBytes (Memory.read s.mem s.pc.toNat) (Memory.read s.mem (s.pc.toNat + 1))) = .ok i) :
    Executes s i :=
  ⟨hw, hr, _, fetch_eq_next.2 ⟨by omega, rfl⟩, h⟩

/-- Settles O7: the two bytes at PC make the step one that executes the instruction. -/
theorem stepRunsTheDecodedInstruction : Obligations.StepRunsTheDecodedInstruction := fun _ _ hw hr hpc hdecode =>
  have h := executes_of_decodes hw hr hpc hdecode
  ⟨step_of_executes h, fun _ => stepReport_of_executes h⟩

/-- Settles O8: the wait check comes first. -/
theorem stepInAWaitChangesNothing : Obligations.StepInAWaitChangesNothing := fun s hw =>
  ⟨step_waiting hw, by rw [stepReport, if_pos hw]⟩

/-- Settles O9: the step is the completion of the wait, which writes PC and `resume`. -/
theorem stepAfterAResolvedWaitAdvancesPc : Obligations.StepAfterAResolvedWaitAdvancesPc := by
  intro s hw hr
  refine ⟨s.completeWait, step_resume hw hr, ?_, rfl, rfl, sameBut_iff.2 (by simp)⟩
  simp [stepReport, hw, hr]

/-- Settles O10: the fetch fails at the first of its two addresses above 0xFFF. -/
theorem fetchOutsideMemoryFaults : Obligations.FetchOutsideMemoryFaults := by
  intro s hw hr hpc
  rw [step_fetching hw hr, fetch_out_of_bounds (by omega), thenDo_fault]
  congr 2
  split <;> omega

/-- Settles O11: a fetched word that does not decode is not run. -/
theorem unrecognizedWordFaults : Obligations.UnrecognizedWordFaults := by
  intro s w hw hr hfetch hdecode
  rw [step_fetching hw hr, hfetch, thenDo_next, dropReport_runWord_error hdecode]

/-- After the placing of a word, the fetch reads that word (the model's own placing, notes/assumptions/9.md). -/
theorem fetch_placeFetch {s : State} (h : Memory.wf s.mem) (w : Word) : fetch (s.placeFetch w) = .next w := by
  have hhi := read_placeWord h.1 (fetchablePc s.pc).toNat (fetchablePc s.pc).toNat w
  have hlo := read_placeWord h.1 (fetchablePc s.pc).toNat ((fetchablePc s.pc).toNat + 1) w
  rw [if_neg (by omega), if_pos rfl] at hhi
  rw [if_pos rfl] at hlo
  refine fetch_eq_next.2 ⟨fetchablePc_lt s.pc, ?_⟩
  rw [State.placeFetch_mem, State.placeFetch_pc, hhi, hlo, wordOfBytes_bytesOfWord]

/-- A word placed by its number is the word placed. -/
theorem withFetchWord_toNat (s : State) (w : Word) : s.withFetchWord 16 w.toNat = s.placeFetch w := by
  rw [State.withFetchWord, Nat.mod_eq_of_lt w.isLt, BitVec.ofNat_toNat, BitVec.setWidth_eq]

/-- Settles O12: the placing leaves any wait and puts the word where the fetch reads it. -/
theorem placedWordIsTheNextInstruction : Obligations.PlacedWordIsTheNextInstruction := by
  intro s w i hmem hdecode
  rw [withFetchWord_toNat]
  exact step_of_executes ⟨rfl, rfl, w, fetch_placeFetch hmem w, hdecode⟩

/-- Settles O13: the jump writes PC alone, and the value it writes is the one PC has. -/
theorem jumpToItselfRepeatsTheState : Obligations.JumpToItselfRepeatsTheState := by
  intro s nnn h hpc
  have hlit : literalAddr nnn = s.pc := BitVec.eq_of_toNat_eq (by rw [literalAddr_toNat, hpc])
  have hjp : exec (.jp nnn) s = .next (s.setPc (literalAddr nnn)) := rfl
  rw [step_of_executes h, hjp, hlit]
  rfl

end Sys2Proof.Machine
end

section
/-! Which steps write which part of the state (spec/10_state.md, spec/40_step_cycle.md R106): the rules of the whole machine, each
from what an executed instruction writes. -/

namespace Sys2Proof.Machine

/-- A step keeps every part but PC and `resume`, or it executes an instruction (R100). -/
theorem step_keeps_or_executes {s t : State} (h : step s = .next t) :
    (t = s ∨ t = s.completeWait) ∨ ∃ i, Executes s i ∧ exec i s = .next t := by
  rcases step_executes h with ⟨-, h⟩ | ⟨-, -, h⟩ | h
  · exact .inl (.inl h)
  · exact .inl (.inr h)
  · exact .inr h

/-- A key-down event leaves the two timers (R247). -/
theorem keyDown_timers (k : KeyIdx) (s : State) : (keyDown k s).dt = s.dt ∧ (keyDown k s).st = s.st := by
  unfold keyDown
  split <;> exact ⟨rfl, rfl⟩

/-- A step changes a timer only by executing the instruction that writes it (R32). -/
theorem step_timers {s t : State} (h : step s = .next t) :
    (t.dt = s.dt ∨ ∃ x, Executes s (.ldDtVx x)) ∧ (t.st = s.st ∨ ∃ x, Executes s (.ldStVx x)) := by
  rcases step_keeps_or_executes h with (rfl | rfl) | ⟨i, hi, hexec⟩
  · exact ⟨.inl rfl, .inl rfl⟩
  · exact ⟨.inl rfl, .inl rfl⟩
  · obtain ⟨-, hdt, hst, -⟩ := exec_writes hexec
    exact ⟨hdt.imp_right fun ⟨x, hx⟩ => ⟨x, hx ▸ hi⟩, hst.imp_right fun ⟨x, hx⟩ => ⟨x, hx ▸ hi⟩⟩

/-- Settles O21: of the host calls other than the tick, only a step can write a timer. -/
theorem timersChangeOnlyByWritesAndTicks : Obligations.TimersChangeOnlyByWritesAndTicks := by
  intro c s t h
  cases c with
  | step =>
    obtain ⟨hdt, hst⟩ := step_timers h
    exact ⟨hdt.imp_right fun hx => .inr ⟨rfl, hx⟩, hst.imp_right fun hx => .inr ⟨rfl, hx⟩⟩
  | tickTimers => exact ⟨.inr (.inl rfl), .inr (.inl rfl)⟩
  | keyDown k =>
    cases h
    obtain ⟨hdt, hst⟩ := keyDown_timers k s
    exact ⟨.inl hdt, .inl hst⟩
  | keyUp | readFramebuffer | clearDirty | readSoundTimer => cases h; exact ⟨.inl rfl, .inl rfl⟩

/-- CLS and DRW end with the redraw flag set and with memory as it was (R190, R192). -/
theorem exec_draws {i : Instr} {s t : State} (hi : i = .cls ∨ ∃ x y n, i = .drw x y n) (h : exec i s = .next t) :
    t.dirty = true ∧ t.mem = s.mem := by
  rcases hi with rfl | ⟨x, y, n, rfl⟩
  · cases h; exact ⟨rfl, rfl⟩
  · obtain ⟨-, rfl⟩ := execDrw_eq_next.1 h
    exact ⟨rfl, rfl⟩

/-- Settles O22: the pixels and the flag have two writers, and each of them sets the flag and leaves memory. -/
theorem stepsTouchTheDisplayOnlyByClsAndDrw : Obligations.StepsTouchTheDisplayOnlyByClsAndDrw := by
  intro s t h
  constructor
  · rcases step_keeps_or_executes h with (rfl | rfl) | ⟨i, hi, hexec⟩
    · exact .inl ⟨rfl, rfl⟩
    · exact .inl ⟨rfl, rfl⟩
    · obtain ⟨-, -, -, hsame | ⟨rfl | ⟨x, y, n, rfl⟩, -, -⟩, -⟩ := exec_writes hexec
      · exact .inl hsame
      · exact .inr (.inl hi)
      · exact .inr (.inr ⟨x, y, n, hi⟩)
  · rintro (hi | ⟨x, y, n, hi⟩)
    · exact exec_draws (.inl rfl) ((step_of_executes hi).symm.trans h)
    · exact exec_draws (.inr ⟨x, y, n, rfl⟩) ((step_of_executes hi).symm.trans h)

/-- Settles O18: an executed instruction keeps the font bytes; every other step keeps memory. -/
theorem noStepChangesTheFont : Obligations.NoStepChangesTheFont := by
  intro s t a hmem ha h
  rcases step_keeps_or_executes h with (rfl | rfl) | ⟨i, -, hexec⟩
  · rfl
  · rfl
  · exact (exec_keeps_mem_wf hmem hexec).2 a ha

/-- Settles O23: memory has two writers, each of which writes its bytes from I on. -/
theorem stepsWriteMemoryOnlyByTransfers : Obligations.StepsWriteMemoryOnlyByTransfers := by
  intro s t hmem h
  rcases step_keeps_or_executes h with (rfl | rfl) | ⟨i, hi, hexec⟩
  · exact .inl rfl
  · exact .inl rfl
  · rcases exec_writes_mem hexec with hsame | ⟨x, rfl, hwrite⟩ | ⟨x, rfl, hwrite⟩
    · exact .inl hsame
    · exact .inr (.inl ⟨x, hi, fun b hb => writeBytes_read_outside hmem hwrite hb⟩)
    · refine .inr (.inr ⟨x, hi, fun b hb => writeBytes_read_outside hmem hwrite ?_⟩)
      rwa [State.regsUpTo_length]

/-- R29, R123: a push writes one slot, the one SP points at. -/
theorem pushSlot_stackSlot_of_ne {s : State} (h : s.sp < config.stackDepth) (v : Word) {j : Nat} (hj : j ≠ s.sp) :
    (s.pushSlot v).stackSlot j = s.stackSlot j := by
  rw [State.pushSlot_stackSlot _ _ _ h, if_neg hj]

/-- Settles O24: I has three writers; the stack has two, CALL's push and RET's pop. -/
theorem addressRegisterAndStackWriters : Obligations.AddressRegisterAndStackWriters := by
  intro s t h
  rcases step_keeps_or_executes h with (rfl | rfl) | ⟨i, hi, hexec⟩
  · exact ⟨.inl rfl, .inl rfl, .inl rfl⟩
  · exact ⟨.inl rfl, .inl rfl, .inl rfl⟩
  · obtain ⟨hI, -, -, -, -, -, -, -, hstack⟩ := exec_writes hexec
    constructor
    · rcases hI with hsame | ⟨nnn, rfl⟩ | ⟨x, rfl⟩ | ⟨x, rfl⟩
      · exact .inl hsame
      · exact .inr (.inl ⟨nnn, hi⟩)
      · exact .inr (.inr (.inl ⟨x, hi⟩))
      · exact .inr (.inr (.inr ⟨x, hi⟩))
    · rcases hstack with ⟨hsp, hslots⟩ | ⟨nnn, rfl, hfull, rfl⟩ | ⟨rfl, hpos, rfl⟩
      · exact ⟨.inl hsp, .inl hslots⟩
      · exact ⟨.inr (.inl ⟨⟨nnn, hi⟩, rfl⟩), .inr ⟨⟨nnn, hi⟩, fun j hj => pushSlot_stackSlot_of_ne hfull _ hj⟩⟩
      · exact ⟨.inr (.inr ⟨hi, Nat.sub_add_cancel hpos⟩), .inl rfl⟩

end Sys2Proof.Machine
end

section
/-! What each family's decoder recognizes (spec/30_encoding.md R76 to R81), and that a recognized word is the encoding of what it
decodes to (R84). -/

namespace Sys2Proof

/-! ### A word rebuilt from the fields its row keeps -/

/-- A word of family `p` is the NNN shape of its literal (R72). -/
theorem encNNN_eq_of_fields {w : Word} {p : Nat} (hop : fieldOp w = p) : encNNN p (fieldNNN w) = w :=
  hop ▸ encNNN_fields w

/-- A word of family `p` with last byte `k` is the XKK shape of its x field (R72). -/
theorem encXKK_eq_of_fields {w : Word} {p k : Nat} (hop : fieldOp w = p) (hkk : (fieldKK w).toNat = k) :
    encXKK p (fieldX w) k = w :=
  hop ▸ hkk ▸ encXKK_fields w

/-- A word of family `p` with last nibble `n` is the XYN shape of its x and y fields (R72). -/
theorem encXYN_eq_of_fields {w : Word} {p n : Nat} (hop : fieldOp w = p) (hn : (fieldN w).val = n) :
    encXYN p (fieldX w) (fieldY w) n = w :=
  hop ▸ hn ▸ encXYN_fields w

/-! ### No bit is dropped -/

/-- A word of family 0x0 with literal `k` is the word of that value (R76). -/
theorem eq_of_family0 {w : Word} {k : Nat} (hop : fieldOp w = 0) (hk : (fieldNNN w).toNat = k) : w = BitVec.ofNat 16 k := by
  rw [← encNNN_eq_of_fields hop, encNNN, hk, Nat.zero_mul, Nat.zero_add]

/-- R76, R84: family 0x0. -/
theorem encode_of_decodeFamily0 {w : Word} {i : Instr} (hop : fieldOp w = 0x0) (h : decodeFamily0 w = .ok i) :
    i.wellFormed = true ∧ encode i = w := by
  unfold decodeFamily0 at h
  split at h
  · next hk => cases h; exact ⟨rfl, (eq_of_family0 hop hk).symm⟩
  · next hk => cases h; exact ⟨rfl, (eq_of_family0 hop hk).symm⟩
  · next hcls hret =>
    cases h
    have hwf := sysLiteralOk_iff.2 ⟨fun e => hcls (congrArg BitVec.toNat e), fun e => hret (congrArg BitVec.toNat e)⟩
    exact ⟨hwf, encNNN_eq_of_fields hop⟩

/-- R78, R84: family 0x8. -/
theorem encode_of_decodeFamily8 {w : Word} {i : Instr} (hop : fieldOp w = 0x8) (h : decodeFamily8 w = .ok i) :
    i.wellFormed = true ∧ encode i = w := by
  unfold decodeFamily8 at h
  split at h <;> cases h <;> exact ⟨rfl, encXYN_eq_of_fields hop ‹_›⟩

/-- R77, R84: family 0x5, and family 0x9. -/
theorem encode_of_decodeNibble0 {w : Word} {i : Instr} {op : RegIdx → RegIdx → Instr}
    (hop : ∀ x y, (op x y).wellFormed = true ∧ encode (op x y) = encXYN (fieldOp w) x y 0)
    (h : decodeNibble0 op w = .ok i) : i.wellFormed = true ∧ encode i = w := by
  unfold decodeNibble0 at h
  split at h
  · next hn =>
    cases h
    obtain ⟨hwf, henc⟩ := hop (fieldX w) (fieldY w)
    exact ⟨hwf, henc.trans (encXYN_eq_of_fields rfl hn)⟩
  · cases h

/-- R79, R84: family 0xE. -/
theorem encode_of_decodeFamilyE {w : Word} {i : Instr} (hop : fieldOp w = 0xE) (h : decodeFamilyE w = .ok i) :
    i.wellFormed = true ∧ encode i = w := by
  unfold decodeFamilyE at h
  split at h <;> cases h <;> exact ⟨rfl, encXKK_eq_of_fields hop ‹_›⟩

/-- R80, R84: family 0xF. -/
theorem encode_of_decodeFamilyF {w : Word} {i : Instr} (hop : fieldOp w = 0xF) (h : decodeFamilyF w = .ok i) :
    i.wellFormed = true ∧ encode i = w := by
  unfold decodeFamilyF at h
  split at h <;> cases h <;> exact ⟨rfl, encXKK_eq_of_fields hop ‹_›⟩

/-- Settles O2: family by family, the fields that the row keeps rebuild the word. -/
theorem encodeOfDecodeIsTheWord : Obligations.EncodeOfDecodeIsTheWord := by
  intro w i h
  unfold decodeWord at h
  split at h
  case h_1 hop => exact encode_of_decodeFamily0 hop h
  case h_6 hop => exact encode_of_decodeNibble0 (fun x y => ⟨rfl, by rw [hop]; rfl⟩) h
  case h_9 hop => exact encode_of_decodeFamily8 hop h
  case h_10 hop => exact encode_of_decodeNibble0 (fun x y => ⟨rfl, by rw [hop]; rfl⟩) h
  case h_14 hop => cases h; exact ⟨rfl, encXYN_eq_of_fields hop rfl⟩
  case h_15 hop => exact encode_of_decodeFamilyE hop h
  case h_16 hop => exact encode_of_decodeFamilyF hop h
  case h_17 => cases h
  case h_2 hop | h_3 hop | h_11 hop | h_12 hop => cases h; exact ⟨rfl, encNNN_eq_of_fields hop⟩
  case h_4 hop | h_5 hop | h_7 hop | h_8 hop | h_13 hop => cases h; exact ⟨rfl, encXKK_eq_of_fields hop rfl⟩

/-- R71, R84: decoding and encoding are inverse: a word decodes to an instruction exactly when it is that well-formed instruction's
encoding. -/
theorem decodeWord_eq_ok_iff {w : Word} {i : Instr} : decodeWord w = .ok i ↔ i.wellFormed = true ∧ encode i = w :=
  ⟨encodeOfDecodeIsTheWord w i, fun ⟨hwf, henc⟩ => henc ▸ decodeWord_encode hwf⟩

/-! ### Which words are recognized -/

/-- R78: family 0x8 recognizes its listed nibbles. -/
theorem decodeFamily8_recognizes (w : Word) :
    if (fieldN w).val ∈ [0x0, 0x1, 0x2, 0x3, 0x4, 0x5, 0x6, 0x7, 0xE] then ∃ i, decodeFamily8 w = .ok i
    else decodeFamily8 w = .error (.unrecognized w) := by
  generalize hd : decodeFamily8 w = d
  unfold decodeFamily8 at hd
  split at hd <;> subst hd
  case h_10 => rw [if_neg (by simp only [List.mem_cons, List.not_mem_nil, or_false]; tauto)]
  all_goals next hn => rw [if_pos (by simp [hn])]; exact ⟨_, rfl⟩

/-- R79: family 0xE recognizes its listed bytes. -/
theorem decodeFamilyE_recognizes (w : Word) :
    if (fieldKK w).toNat ∈ [0x9E, 0xA1] then ∃ i, decodeFamilyE w = .ok i
    else decodeFamilyE w = .error (.unrecognized w) := by
  generalize hd : decodeFamilyE w = d
  unfold decodeFamilyE at hd
  split at hd <;> subst hd
  case h_3 => rw [if_neg (by simp only [List.mem_cons, List.not_mem_nil, or_false]; tauto)]
  all_goals next hkk => rw [if_pos (by simp [hkk])]; exact ⟨_, rfl⟩

/-- R80: family 0xF recognizes its listed bytes. -/
theorem decodeFamilyF_recognizes (w : Word) :
    if (fieldKK w).toNat ∈ [0x07, 0x0A, 0x15, 0x18, 0x1E, 0x29, 0x33, 0x55, 0x65] then ∃ i, decodeFamilyF w = .ok i
    else decodeFamilyF w = .error (.unrecognized w) := by
  generalize hd : decodeFamilyF w = d
  unfold decodeFamilyF at hd
  split at hd <;> subst hd
  case h_10 => rw [if_neg (by simp only [List.mem_cons, List.not_mem_nil, or_false]; tauto)]
  all_goals next hkk => rw [if_pos (by simp [hkk])]; exact ⟨_, rfl⟩

/-- R77: the families 0x5 and 0x9 recognize n = 0. -/
theorem decodeNibble0_recognizes (op : RegIdx → RegIdx → Instr) (w : Word) :
    if (fieldN w).val = 0 then ∃ i, decodeNibble0 op w = .ok i else decodeNibble0 op w = .error (.unrecognized w) := by
  generalize hd : decodeNibble0 op w = d
  unfold decodeNibble0 at hd
  split at hd <;> subst hd
  · next hn => rw [if_pos hn]; exact ⟨_, rfl⟩
  · next hn => rw [if_neg hn]

/-- R76: family 0x0 recognizes every word. -/
theorem decodeFamily0_eq (w : Word) :
    decodeFamily0 w = .ok (if fieldNNN w = 0x0E0 then .cls else if fieldNNN w = 0x0EE then .ret else .sys (fieldNNN w)) := by
  by_cases hcls : fieldNNN w = 0x0E0
  · simp [decodeFamily0, hcls]
  · by_cases hret : fieldNNN w = 0x0EE
    · simp [decodeFamily0, hret]
    · rw [if_neg hcls, if_neg hret, decodeFamily0_of_sysLiteralOk (sysLiteralOk_iff.2 ⟨hcls, hret⟩)]

/-- Settles O3: the three families' decoders. -/
theorem subDispatchedFamiliesRecognizeTheirLists : Obligations.SubDispatchedFamiliesRecognizeTheirLists := by
  intro w
  refine ⟨fun hop => ?_, fun hop => ?_, fun hop => ?_⟩ <;> simp only [decodeWord, hop]
  · exact decodeFamily8_recognizes w
  · exact decodeFamilyE_recognizes w
  · exact decodeFamilyF_recognizes w

/-- Settles O4: the decoders of the families 0x0, 0x5 and 0x9; the ten others have no sub-dispatch. -/
theorem remainingFamiliesRecognizeAsTheMapSays : Obligations.RemainingFamiliesRecognizeAsTheMapSays := by
  intro w
  refine ⟨fun hop => ?_, fun hop => ?_, fun hop => ?_⟩
  · simp only [decodeWord, hop]
    exact decodeFamily0_eq w
  · rcases hop with hop | hop <;> simp only [decodeWord, hop] <;> exact decodeNibble0_recognizes _ w
  · simp only [List.mem_cons, List.not_mem_nil, or_false] at hop
    rcases hop with hop | hop | hop | hop | hop | hop | hop | hop | hop | hop <;>
      simp only [decodeWord, hop] <;> exact ⟨_, rfl⟩

/-- Settles O6: the words are literals, so the decoder computes. -/
theorem writtenOutWordsDecode : Obligations.WrittenOutWordsDecode := by
  unfold Obligations.WrittenOutWordsDecode
  and_intros <;> rfl

end Sys2Proof
end

section
/-! The opcode table (spec/opcode_table.json, spec/30_encoding.md R75): its masks as conditions on the fields, and that its rows and the
decoder agree. -/

namespace Sys2Proof

/-- A row selects a word by mask and match, as values, and by its excluded words. -/
theorem OpcodeRow.selects_iff {r : OpcodeRow} {w : Word} :
    r.selects w = true ↔ (w &&& r.mask).toNat = r.pattern.toNat ∧ w ∉ r.excludes := by
  simp only [OpcodeRow.selects, Bool.and_eq_true, beq_iff_eq, Bool.not_eq_true', List.contains_eq_mem, decide_eq_false_iff_not,
    BitVec.toNat_inj]

/-- A row with mask 0xF000 selects the words of one family, but for the excluded ones. -/
theorem selects_F000_iff {p : Word} {ex : List Word} {b : Word → Instr} {w : Word} :
    OpcodeRow.selects ⟨0xF000, p, ex, b⟩ w = true ↔ fieldOp w * 0x1000 = p.toNat ∧ w ∉ ex := by
  rw [OpcodeRow.selects_iff, and_F000_toNat, fieldOp_eq]

/-- A row with mask 0xF00F selects the words of one family with one last nibble. -/
theorem selects_F00F_iff {p : Word} {b : Word → Instr} {w : Word} :
    OpcodeRow.selects ⟨0xF00F, p, [], b⟩ w = true ↔ fieldOp w * 0x1000 + (fieldN w).val = p.toNat := by
  rw [OpcodeRow.selects_iff, and_F00F_toNat, fieldOp_eq, fieldN_val, and_iff_left List.not_mem_nil]

/-- A row with mask 0xF0FF selects the words of one family with one last byte. -/
theorem selects_F0FF_iff {p : Word} {b : Word → Instr} {w : Word} :
    OpcodeRow.selects ⟨0xF0FF, p, [], b⟩ w = true ↔ fieldOp w * 0x1000 + (fieldKK w).toNat = p.toNat := by
  rw [OpcodeRow.selects_iff, and_F0FF_toNat, fieldOp_eq, fieldKK_toNat, and_iff_left List.not_mem_nil]

/-- A row with mask 0xFFFF selects one word. -/
theorem selects_FFFF_iff {p : Word} {b : Word → Instr} {w : Word} :
    OpcodeRow.selects ⟨0xFFFF, p, [], b⟩ w = true ↔ w = p := by
  have hmask : w &&& (0xFFFF : Word) = w := BitVec.and_allOnes
  rw [OpcodeRow.selects_iff, hmask, BitVec.toNat_inj, and_iff_left List.not_mem_nil]

/-- A row is right for a word where, if it selects the word, the word decodes to what the row builds. -/
def OpcodeRow.RightFor (r : OpcodeRow) (w : Word) : Prop := r.selects w = true → decodeWord w = .ok (r.build w)

/-- A row of one word is right where that word decodes so. -/
theorem OpcodeRow.RightFor.of_FFFF {p w : Word} {b : Word → Instr} (h : decodeWord p = .ok (b p)) :
    OpcodeRow.RightFor ⟨0xFFFF, p, [], b⟩ w := fun hsel => by
  obtain rfl := selects_FFFF_iff.1 hsel
  exact h

/-- A row of a whole family is right where the family's words are the encodings of what the row builds. -/
theorem OpcodeRow.RightFor.of_F000 {k : Nat} {p w : Word} {b : Word → Instr} (hwf : (b w).wellFormed = true)
    (henc : fieldOp w = k → encode (b w) = w) (hp : p.toNat = k * 0x1000) :
    OpcodeRow.RightFor ⟨0xF000, p, [], b⟩ w := fun hsel => by
  obtain ⟨hval, -⟩ := selects_F000_iff.1 hsel
  exact decodeWord_eq_ok_iff.2 ⟨hwf, henc (by omega)⟩

/-- A row of a family and a last nibble is right where the words with both are the encodings of what the row builds. -/
theorem OpcodeRow.RightFor.of_F00F {k n : Nat} {p w : Word} {b : Word → Instr} (hwf : (b w).wellFormed = true)
    (henc : fieldOp w = k → (fieldN w).val = n → encode (b w) = w) (hp : p.toNat = k * 0x1000 + n)
    (hn : n < 16 := by decide) : OpcodeRow.RightFor ⟨0xF00F, p, [], b⟩ w := fun hsel => by
  have hval := selects_F00F_iff.1 hsel
  have := (fieldN w).isLt
  exact decodeWord_eq_ok_iff.2 ⟨hwf, henc (by omega) (by omega)⟩

/-- A row of a family and a last byte is right where the words with both are the encodings of what the row builds. -/
theorem OpcodeRow.RightFor.of_F0FF {k n : Nat} {p w : Word} {b : Word → Instr} (hwf : (b w).wellFormed = true)
    (henc : fieldOp w = k → (fieldKK w).toNat = n → encode (b w) = w) (hp : p.toNat = k * 0x1000 + n)
    (hn : n < 256 := by decide) : OpcodeRow.RightFor ⟨0xF0FF, p, [], b⟩ w := fun hsel => by
  have hval := selects_F0FF_iff.1 hsel
  have := (fieldKK w).isLt
  exact decodeWord_eq_ok_iff.2 ⟨hwf, henc (by omega) (by omega)⟩

/-- The SYS row is right: its two excluded words are those of CLS and RET (R76). -/
theorem OpcodeRow.rightFor_sys (w : Word) :
    OpcodeRow.RightFor ⟨0xF000, 0x0000, [0x00E0, 0x00EE], fun w => .sys (fieldNNN w)⟩ w := fun hsel => by
  obtain ⟨hval, hex⟩ := selects_F000_iff.1 hsel
  have hval : fieldOp w * 0x1000 = 0 := hval
  have henc : encNNN 0 (fieldNNN w) = w := encNNN_eq_of_fields (by omega)
  have hwf : sysLiteralOk (fieldNNN w) = true := by
    refine sysLiteralOk_iff.2 ⟨fun e => hex ?_, fun e => hex ?_⟩ <;> rw [← henc, e] <;> decide
  exact decodeWord_eq_ok_iff.2 ⟨hwf, henc⟩

/-- The rows of families 0x0 to 0x7 are right for every word. -/
theorem opcodeTableLow_rightFor (w : Word) : ∀ r ∈ opcodeTableLow, r.RightFor w := by
  simp only [opcodeTableLow, List.forall_mem_cons, List.not_mem_nil, false_implies, implies_true, and_true]
  exact ⟨.of_FFFF rfl, .of_FFFF rfl, OpcodeRow.rightFor_sys w,
    .of_F000 rfl encNNN_eq_of_fields rfl, .of_F000 rfl encNNN_eq_of_fields rfl,
    .of_F000 rfl (encXKK_eq_of_fields · rfl) rfl, .of_F000 rfl (encXKK_eq_of_fields · rfl) rfl,
    .of_F00F rfl encXYN_eq_of_fields rfl,
    .of_F000 rfl (encXKK_eq_of_fields · rfl) rfl, .of_F000 rfl (encXKK_eq_of_fields · rfl) rfl⟩

/-- The rows of families 0x8 to 0xD are right for every word. -/
theorem opcodeTableMid_rightFor (w : Word) : ∀ r ∈ opcodeTableMid, r.RightFor w := by
  simp only [opcodeTableMid, List.forall_mem_cons, List.not_mem_nil, false_implies, implies_true, and_true]
  refine ⟨?_, ?_, ?_, ?_, ?_, ?_, ?_, ?_, ?_, ?_, .of_F000 rfl encNNN_eq_of_fields rfl, .of_F000 rfl encNNN_eq_of_fields rfl,
    .of_F000 rfl (encXKK_eq_of_fields · rfl) rfl, .of_F000 rfl (encXYN_eq_of_fields · rfl) rfl⟩
  all_goals exact .of_F00F rfl encXYN_eq_of_fields rfl

/-- The rows of families 0xE and 0xF are right for every word. -/
theorem opcodeTableHigh_rightFor (w : Word) : ∀ r ∈ opcodeTableHigh, r.RightFor w := by
  simp only [opcodeTableHigh, List.forall_mem_cons, List.not_mem_nil, false_implies, implies_true, and_true]
  refine ⟨?_, ?_, ?_, ?_, ?_, ?_, ?_, ?_, ?_, ?_, ?_⟩
  all_goals exact .of_F0FF rfl encXKK_eq_of_fields rfl

/-- A word that a row of the table selects decodes to what the row builds. -/
theorem decodeWord_of_selects {w : Word} {r : OpcodeRow} (hr : r ∈ opcodeTable) (h : r.selects w = true) :
    decodeWord w = .ok (r.build w) := by
  rcases List.mem_append.1 hr with hr | hr
  · rcases List.mem_append.1 hr with hr | hr
    · exact opcodeTableLow_rightFor w r hr h
    · exact opcodeTableMid_rightFor w r hr h
  · exact opcodeTableHigh_rightFor w r hr h

/-- The word of a SYS is neither of the two words its row excludes, since those decode to CLS and RET (R76). -/
theorem encode_sys_not_excluded {nnn : Addr12} (h : (Instr.sys nnn).wellFormed = true) :
    encode (.sys nnn) ∉ ([0x00E0, 0x00EE] : List Word) := by
  have hdecode := decodeWord_encode h
  intro hmem
  rw [List.mem_cons, List.mem_singleton] at hmem
  rcases hmem with e | e <;> rw [e] at hdecode <;> cases hdecode

/-- A word that a row of one of the table's three parts selects is selected by a row of the table. -/
theorem exists_row_of_part {w : Word}
    (h : (∃ r ∈ opcodeTableLow, r.selects w = true) ∨ (∃ r ∈ opcodeTableMid, r.selects w = true) ∨
      ∃ r ∈ opcodeTableHigh, r.selects w = true) : ∃ r ∈ opcodeTable, r.selects w = true := by
  simp only [opcodeTable, List.mem_append, or_assoc]
  rcases h with ⟨r, hr, hsel⟩ | ⟨r, hr, hsel⟩ | ⟨r, hr, hsel⟩
  · exact ⟨r, .inl hr, hsel⟩
  · exact ⟨r, .inr (.inl hr), hsel⟩
  · exact ⟨r, .inr (.inr hr), hsel⟩

/-- Every well-formed instruction's word is selected by a row of the part of the table that has its family. -/
theorem exists_row_selects_encode {i : Instr} (h : i.wellFormed = true) : ∃ r ∈ opcodeTable, r.selects (encode i) = true := by
  apply exists_row_of_part
  simp only [opcodeTableLow, opcodeTableMid, opcodeTableHigh, List.exists_mem_cons_iff, selects_F000_iff, selects_F00F_iff,
    selects_F0FF_iff, selects_FFFF_iff]
  cases i with
  | cls => exact .inl (.inl rfl)
  | ret => exact .inl (.inr (.inl rfl))
  | sys nnn =>
    have hop : fieldOp (encNNN 0 nnn) = 0 := fieldOp_encNNN (by decide) nnn
    exact .inl (.inr (.inr (.inl ⟨by rw [encode, hop]; rfl, encode_sys_not_excluded h⟩)))
  | jp nnn | call nnn => left; simp [encode, fieldOp_encNNN]
  | seImm x kk | sneImm x kk | ldImm x kk | addImm x kk => left; simp [encode, fieldOp_encXKK, kk.isLt]
  | seReg x y => left; simp [encode, fieldOp_encXYN, fieldN_encXYN]
  | ldI nnn | jpV0 nnn => right; left; simp [encode, fieldOp_encNNN]
  | ldReg x y | or x y | and x y | xor x y | addReg x y | sub x y | shr x y | subn x y | shl x y | sneReg x y =>
    right; left; simp [encode, fieldOp_encXYN, fieldN_encXYN]
  | rnd x kk => right; left; simp [encode, fieldOp_encXKK, kk.isLt]
  | drw x y n => right; left; simp [encode, fieldOp_encXYN]
  | skp x | sknp x | ldVxDt x | ldVxK x | ldDtVx x | ldStVx x | addI x | ldF x | ldB x | storeRegs x | loadRegs x =>
    right; right; simp [encode, fieldOp_encXKK, fieldKK_encXKK]

/-- A family that recognizes some of its words answers every other one by name (R85). -/
theorem eq_unrecognized_of_recognizes {c : Prop} [Decidable c] {w : Word} {d : Except Reject Instr} {r : Reject}
    (hd : if c then ∃ i, d = .ok i else d = .error (.unrecognized w)) (h : d = .error r) : r = .unrecognized w := by
  subst h
  split at hd
  · obtain ⟨i, hi⟩ := hd
    cases hi
  · exact Except.error.inj hd

/-- A word that is not recognized is answered by name (R85). -/
theorem decodeWord_eq_error {w : Word} {r : Reject} (h : decodeWord w = .error r) : r = .unrecognized w := by
  unfold decodeWord at h
  split at h
  case h_1 => rw [decodeFamily0_eq] at h; cases h
  case h_6 | h_10 => exact eq_unrecognized_of_recognizes (decodeNibble0_recognizes _ w) h
  case h_9 => exact eq_unrecognized_of_recognizes (decodeFamily8_recognizes w) h
  case h_15 => exact eq_unrecognized_of_recognizes (decodeFamilyE_recognizes w) h
  case h_16 => exact eq_unrecognized_of_recognizes (decodeFamilyF_recognizes w) h
  all_goals cases h
  rfl

/-- Settles O5: a selecting row is right, and the word of every instruction has one. -/
theorem decoderAgreesWithOpcodeTable : Obligations.DecoderAgreesWithOpcodeTable := by
  intro w
  have hrow : ∀ i, decodeWord w = .ok i ↔ ∃ r ∈ opcodeTable, r.selects w = true ∧ r.build w = i := by
    refine fun i => ⟨fun h => ?_, ?_⟩
    · obtain ⟨hwf, rfl⟩ := decodeWord_eq_ok_iff.1 h
      obtain ⟨r, hr, hsel⟩ := exists_row_selects_encode hwf
      have hbuild := (decodeWord_of_selects hr hsel).symm.trans h
      exact ⟨r, hr, hsel, Except.ok.inj hbuild⟩
    · rintro ⟨r, hr, hsel, rfl⟩
      exact decodeWord_of_selects hr hsel
  refine ⟨hrow, fun hnone => ?_⟩
  cases h : decodeWord w with
  | ok i =>
    obtain ⟨r, hr, hsel, -⟩ := (hrow i).1 h
    simp [hnone r hr] at hsel
  | error r => rw [decodeWord_eq_error h]

end Sys2Proof
end

section
/-! The flag-setting arithmetic, the random byte and the timer instructions (spec/42_alu.md R146 to R159, spec/45_timer_keypad.md R212
to R214). -/

namespace Sys2Proof.Machine

/-- A result and a flag followed by the advance change the registers and PC alone (R25). -/
theorem setRegFlag_advance_sameBut (s : State) (x : RegIdx) (w : Byte) (c : Bool) :
    SameBut [.v, .pc] s (s.setRegFlag x w c).advance :=
  sameBut_iff.2 (by simp)

/-- Of the registers, a result and a flag followed by the advance change the one named and VF alone (R147). -/
theorem setRegFlag_advance_regsSameBut (s : State) (x : RegIdx) (w : Byte) (c : Bool) :
    RegsSameBut [x, VF] s (s.setRegFlag x w c).advance := by
  intro r hr
  simp only [List.mem_cons, List.not_mem_nil, or_false, not_or] at hr
  rw [State.advance_reg, State.setRegFlag_reg, if_neg hr.2, if_neg hr.1]

/-- An instruction that answers a result with the property `p`, a flag of value `n` and the advance completes with both, also where the
result's register is VF (R147), and changes nothing else. -/
theorem completes_of_eq_setRegFlag_advance {r : Res State} {s : State} {x : RegIdx} {w : Byte} {c : Bool} {n : Nat}
    (p : Byte → Prop) (hr : r = .next (s.setRegFlag x w c).advance) (hc : (flagByte c).toNat = n) (hp : p w) :
    ∃ t, r = .next t ∧ (t.reg VF).toNat = n ∧ (x ≠ VF → p (t.reg x)) ∧ t.pc = s.pc + 2 ∧ RegsSameBut [x, VF] s t ∧
      SameBut [.v, .pc] s t := by
  refine ⟨(s.setRegFlag x w c).advance, hr, ?_, fun hx => ?_, rfl, setRegFlag_advance_regsSameBut s x w c,
    setRegFlag_advance_sameBut s x w c⟩
  · rw [State.advance_reg, State.setRegFlag_reg, if_pos rfl, hc]
  · rw [State.advance_reg, State.setRegFlag_reg, if_neg hx, if_pos rfl]
    exact hp

/-- The value of a flag that stands for a condition. -/
theorem flagByte_toNat_of_iff {c : Bool} {p : Prop} [Decidable p] (h : c = true ↔ p) :
    (flagByte c).toNat = if p then 1 else 0 := by
  rw [flagByte_toNat]
  exact if_congr h rfl rfl

/-- Settles O28: the sum modulo 256 and the carry. -/
theorem registerAddSetsCarry : Obligations.RegisterAddSetsCarry := by
  intro x y s
  have hadd : exec (.addReg x y) s =
      .next (s.setRegFlag x (sumByte (s.reg x) (s.reg y)) (carry (s.reg x) (s.reg y))).advance := rfl
  exact completes_of_eq_setRegFlag_advance (·.toNat = ((s.reg x).toNat + (s.reg y).toNat) % 256) hadd
    (flagByte_toNat_of_iff carry_eq_true) (sumByte_toNat _ _)

/-- Settles O29: the difference modulo 256 and the absence of a borrow; the two differ in which operand is the minuend. -/
theorem subtractionsSetNoBorrow : Obligations.SubtractionsSetNoBorrow := by
  intro x y s
  have hsub : exec (.sub x y) s =
      .next (s.setRegFlag x (diffByte (s.reg x) (s.reg y)) (noBorrow (s.reg x) (s.reg y))).advance := rfl
  have hsubn : exec (.subn x y) s =
      .next (s.setRegFlag x (diffByte (s.reg y) (s.reg x)) (noBorrow (s.reg y) (s.reg x))).advance := rfl
  exact ⟨completes_of_eq_setRegFlag_advance (fun w => (w.toNat : Int) = ((s.reg x).toNat - (s.reg y).toNat) % 256) hsub
      (flagByte_toNat_of_iff noBorrow_eq_true) (diffByte_toNat _ _),
    completes_of_eq_setRegFlag_advance (fun w => (w.toNat : Int) = ((s.reg y).toNat - (s.reg x).toNat) % 256) hsubn
      (flagByte_toNat_of_iff noBorrow_eq_true) (diffByte_toNat _ _)⟩

/-- R152: the flag of a right shift is the operand's remainder by 2. -/
theorem flagByte_shiftedOutRight_toNat (a : Byte) : (flagByte (shiftedOutRight a)).toNat = a.toNat % 2 := by
  rw [flagByte_toNat_of_iff shiftedOutRight_eq_true]
  split <;> omega

/-- R154: the flag of a left shift is the operand's quotient by 128. -/
theorem flagByte_shiftedOutLeft_toNat (a : Byte) : (flagByte (shiftedOutLeft a)).toNat = a.toNat / 128 := by
  have := a.isLt
  rw [flagByte_toNat_of_iff shiftedOutLeft_eq_true]
  split <;> omega

/-- Settles O30: half or double the operand that SHIFT_SOURCE selects, and the bit shifted out; at the spec's value Vx no y is read. -/
theorem shiftsMoveTheirBitToVF : Obligations.ShiftsMoveTheirBitToVF := by
  rintro x y s a rfl
  have hshr : exec (.shr x y) s = .next (s.setRegFlag x (s.reg x >>> 1) (shiftedOutRight (s.reg x))).advance := rfl
  have hshl : exec (.shl x y) s = .next (s.setRegFlag x (s.reg x <<< 1) (shiftedOutLeft (s.reg x))).advance := rfl
  exact ⟨completes_of_eq_setRegFlag_advance (·.toNat = (s.reg x).toNat / 2) hshr (flagByte_shiftedOutRight_toNat _)
      (shiftRight_toNat _),
    completes_of_eq_setRegFlag_advance (·.toNat = (s.reg x).toNat * 2 % 256) hshl (flagByte_shiftedOutLeft_toNat _)
      (shiftLeft_toNat _),
    fun _ _ => ⟨rfl, rfl⟩⟩

/-- Settles O31: the byte drawn is masked, and a masked byte has no bit outside the mask. -/
theorem randomByteIsMasked : Obligations.RandomByteIsMasked := by
  intro x kk s
  have hrnd : exec (.rnd x kk) s = .next ((drawRandom s).2.setReg x (Config.randByte s.draws &&& kk)).advance := rfl
  have hreg : ((drawRandom s).2.setReg x (Config.randByte s.draws &&& kk)).advance.reg x = Config.randByte s.draws &&& kk := by
    rw [State.advance_reg, State.setReg_reg, if_pos rfl]
  refine ⟨_, hrnd, hreg, fun b hb => ?_, rfl, rfl, setReg_advance_regsSameBut _ x _, sameBut_iff.2 (by simp)⟩
  rw [hreg, BitVec.getLsbD_and, hb, Bool.and_false]

/-- Settles O52: each instruction answers one write, of a register or of a timer. -/
theorem timerReadAndWrites : Obligations.TimerReadAndWrites := by
  intro x s
  have hld : exec (.ldVxDt x) s = .next (s.setReg x s.dt).advance := rfl
  exact ⟨completes_of_eq_setReg_advance (· = s.dt) hld rfl,
    ⟨(s.setDt (s.reg x)).advance, rfl, rfl, rfl, sameBut_iff.2 (by simp)⟩,
    ⟨(s.setSt (s.reg x)).advance, rfl, rfl, rfl, sameBut_iff.2 (by simp)⟩⟩

end Sys2Proof.Machine
end

section
/-! The key skips, the jumps and the return stack (spec/41_control_flow.md, spec/45_timer_keypad.md R210, R211). -/

namespace Sys2Proof.Machine

/-- Settles O34: a register value names a key or is refused, and a named key's state decides the skip. -/
theorem skipsOnAKey : Obligations.SkipsOnAKey := by
  refine fun x s => ⟨fun k hk => ?_, fun hv => ?_⟩
  · have hskp : exec (.skp x) s = .next (s.skipIf (s.keyDownNow k)) := execSkp_eq_next.2 ⟨k, hk, rfl⟩
    have hsknp : exec (.sknp x) s = .next (s.skipIf (!s.keyDownNow k)) := execSknp_eq_next.2 ⟨k, hk, rfl⟩
    exact ⟨completes_of_eq_skipIf hskp Iff.rfl, completes_of_eq_skipIf hsknp (by simp)⟩
  · have hkey := keyIndex_refused hv
    exact ⟨by rw [exec, execSkp, hkey, thenDo_refused], by rw [exec, execSknp, hkey, thenDo_refused]⟩

/-- A write to PC changes PC alone (R25). -/
theorem setPc_sameBut (s : State) (w : Word) : SameBut [.pc] s (s.setPc w) :=
  sameBut_iff.2 (by simp)

/-- The advance changes PC alone (R106). -/
theorem advance_sameBut (s : State) : SameBut [.pc] s s.advance :=
  sameBut_iff.2 (by simp)

/-- Settles O35: the three instructions answer one write to PC; the sum of a literal and a byte does not wrap. -/
theorem jumpsWritePcAlone : Obligations.JumpsWritePcAlone := fun nnn s =>
  ⟨⟨s.advance, rfl, rfl, advance_sameBut s⟩,
    ⟨s.setPc (literalAddr nnn), rfl, literalAddr_toNat nnn, setPc_sameBut s _⟩,
    ⟨s.setPc (literalAddr nnn + byteAsWord (s.reg 0)), rfl, jumpOffset_toNat nnn (s.reg 0), setPc_sameBut s _⟩⟩

/-- R234: a push on a full stack. -/
theorem pushReturn_of_full {s : State} (h : ¬ s.sp < config.stackDepth) (v : Word) :
    pushReturn s v = .fault .stackOverflow := if_neg h

/-- R235: a pop of an empty stack. -/
theorem popReturn_of_empty {s : State} (h : s.sp = 0) : popReturn s = .fault .stackUnderflow := by
  rw [popReturn]
  split
  · rfl
  · next hk => simp [h] at hk

/-- Settles O36: CALL pushes where there is a slot, and a push writes the slot at SP alone. -/
theorem callPushesTheReturnAddress : Obligations.CallPushesTheReturnAddress := by
  refine fun nnn s => ⟨fun hsp => ?_, fun hsp => ?_⟩
  · refine ⟨_, execCall_eq_next.2 ⟨hsp, rfl⟩, ?_, fun j hj => ?_, rfl, literalAddr_toNat nnn, sameBut_iff.2 (by simp)⟩
    · rw [State.setPc_stackSlot, State.pushSlot_stackSlot _ _ _ hsp, if_pos rfl]
    · rw [State.setPc_stackSlot, pushSlot_stackSlot_of_ne hsp _ hj]
  · rw [exec, execCall, pushReturn_of_full (by omega), thenDo_fault]

/-- RET changes SP and PC alone: the popped slot keeps its value (R121, R29). -/
theorem setSp_setPc_sameBut (s : State) (k : Nat) (w : Word) : SameBut [.sp, .pc] s ((s.setSp k).setPc w) :=
  sameBut_iff.2 (by simp)

/-- Settles O37: RET pops where there is an entry. -/
theorem returnPopsTheReturnAddress : Obligations.ReturnPopsTheReturnAddress := by
  refine fun s => ⟨fun hpos _ => ?_, fun hsp => ?_⟩
  · exact ⟨_, execRet_eq_next.2 ⟨hpos, rfl⟩, rfl, rfl, setSp_setPc_sameBut s _ _⟩
  · rw [exec, execRet, popReturn_of_empty hsp, thenDo_fault]

/-- Settles O38: the slot that RET pops is the one CALL pushed, and it still holds what CALL put there. -/
theorem callThenReturnComesBack : Obligations.CallThenReturnComesBack := by
  intro nnn s t u hcall hsp hstack
  obtain ⟨hfull, rfl⟩ := execCall_eq_next.1 hcall
  have husp : u.sp = s.sp + 1 := hsp
  refine ⟨_, execRet_eq_next.2 ⟨by omega, rfl⟩, ?_, by simp [husp], setSp_setPc_sameBut u _ _⟩
  rw [State.setPc_pc, husp, Nat.add_sub_cancel, State.stackSlot_congr hstack, State.setPc_stackSlot,
    State.pushSlot_stackSlot _ _ _ hfull, if_pos rfl]

end Sys2Proof.Machine
end

section
/-! The address register's sum and glyph address (spec/43_index_memory.md R172, R173), and the machine at construction
(spec/10_state.md R42). -/

namespace Sys2Proof.Machine

/-- Settles O40: the sum of I and a byte wraps at 65536. -/
theorem addToAddressRegister : Obligations.AddToAddressRegister := by
  intro x s
  have hadd : exec (.addI x) s = .next (s.setI (s.i + byteAsWord (s.reg x))).advance := rfl
  exact completes_of_eq_setI_advance hadd (by rw [BitVec.toNat_add, byteAsWord_toNat])

/-- R42: outside the font region memory holds 0 at construction. -/
theorem resetByte_of_not_inFont {a : Nat} (h : ¬ inFont a) : resetByte a = 0 := if_neg h

/-- R173: the five bytes at a glyph's address are the digit's at construction. -/
theorem resetByte_glyph {d k : Nat} (hd : d ≤ 0xF) (hk : k < 5) :
    resetByte ((glyphAddr d).toNat + k) = config.fontTable.getD (5 * d + k) 0 := by
  have hsize : 5 * d + k < Config.fontSize := by
    have : Config.fontSize = 80 := rfl
    omega
  rw [glyphAddr_toNat hd, Nat.add_assoc, resetByte_font hsize]

/-- R173: a register value above 15 is no digit. -/
theorem execLdF_refused {x : RegIdx} {s : State} (h : 0xF < (s.reg x).toNat) :
    execLdF x s = .refused (.fontDigitOutOfRange (s.reg x)) := if_pos h

/-- Settles O41: a digit's glyph address is exact, and every other value is refused. -/
theorem glyphLookup : Obligations.GlyphLookup := by
  refine fun x s => ⟨fun hd => ?_, execLdF_refused⟩
  exact ⟨_, execLdF_eq_next.2 ⟨hd, rfl⟩, glyphAddr_toNat hd, rfl, fun k hk => resetByte_glyph hd hk, setI_advance_sameBut s _⟩

/-- Settles O60: construction lists no byte of memory and repeats one value in every other part. -/
theorem constructionValues : Obligations.ConstructionValues := by
  refine ⟨fun k hk => resetByte_font hk, fun a _ ha => resetByte_of_not_inFont ha, fun r => ?_, rfl, rfl, rfl, fun j hj => ?_,
    rfl, rfl, Screen.blank_pixel, rfl, fun k => ?_, rfl, rfl, rfl⟩
  · simp [State.reg, State.reset]
  · simp [State.stackSlot, State.reset]
  · simp [State.keyDownNow, State.reset]

end Sys2Proof.Machine
end

section
/-! The memory accessors and the transfers (spec/20_memory.md, spec/43_index_memory.md R170 to R178), and the program loader
(spec/60_exceptions.md R250). -/

namespace Sys2Proof.Machine

/-- Settles O17: the accessor's write is the canonical memory's, and both accessors check the address first. -/
theorem writtenByteReadsBack : Obligations.WrittenByteReadsBack := by
  refine fun m a w hm => ⟨fun m' h => ?_, fun ha => ⟨memRead_of_ge (by omega), memWrite_of_ge (by omega)⟩⟩
  obtain ⟨ha, -, rfl⟩ := memWrite_eq_next.1 h
  refine ⟨Memory.wf_write hm ha w, fun b hb => ?_⟩
  rw [memRead_of_lt (by omega), Memory.read_write hm.1]

/-! ### Stores that complete -/

/-- New memory followed by the advance changes memory and PC alone (R25, R174). -/
theorem setMem_advance_sameBut (s : State) (m : Memory) : SameBut [.mem, .pc] s (s.setMem m).advance :=
  sameBut_iff.2 (by simp)

/-- A sequence of writes completes where its bytes exist and lie outside the font (R51, R57). -/
theorem writeBytes_completes_of_clear {m : Memory} {a : Nat} {bs : List Byte} (hin : InMemory a bs.length)
    (hclear : ClearOfFont a bs.length) : ∃ m', writeBytes m a bs = .next m' :=
  writeBytes_completes fun k hk => ⟨Nat.lt_succ_of_le (hin k hk), hclear k hk⟩

/-- A store of the bytes `bs` at I completes where they exist outside the font: they stand from I on, every other byte reads as before,
and PC alone changes beside (R174). -/
theorem store_completes {s : State} {bs : List Byte} {r : Res State} (hm : Memory.wf s.mem)
    (hin : InMemory s.i.toNat bs.length) (hclear : ClearOfFont s.i.toNat bs.length)
    (hr : r = thenDo (writeBytes s.mem s.i.toNat bs) fun m => .next (s.setMem m).advance) :
    ∃ t, r = .next t ∧ (∀ k, k < bs.length → Memory.read t.mem (s.i.toNat + k) = bs.getD k 0) ∧
      MemSameOutside s.i.toNat bs.length s t ∧ t.pc = s.pc + 2 ∧ SameBut [.mem, .pc] s t := by
  obtain ⟨m, hwrite⟩ := writeBytes_completes_of_clear hin hclear
  exact ⟨(s.setMem m).advance, by rw [hr, hwrite, thenDo_next], fun _ hk => writeBytes_read_inside hm hwrite hk,
    fun _ hb => writeBytes_read_outside hm hwrite hb, rfl, setMem_advance_sameBut s m⟩

/-- R175: the three digits as values. -/
theorem bcdDigits_getD_toNat (w : Byte) :
    ((bcdDigits w).getD 0 0).toNat = w.toNat / 100 ∧ ((bcdDigits w).getD 1 0).toNat = w.toNat / 10 % 10 ∧
      ((bcdDigits w).getD 2 0).toNat = w.toNat % 10 := by
  have := w.isLt
  simp only [bcdDigits, List.getD_cons_zero, List.getD_cons_succ, BitVec.toNat_ofNat]
  omega

/-- Settles O42: LD B, Vx stores the three digits. -/
theorem bcdStore : Obligations.BcdStore := by
  intro x s hm hin hclear
  obtain ⟨t, hexec, hread, hsame⟩ := store_completes (bs := bcdDigits (s.reg x)) hm hin hclear rfl
  obtain ⟨hhundreds, htens, hones⟩ := bcdDigits_getD_toNat (s.reg x)
  refine ⟨t, hexec, ?_, ?_, ?_, hsame⟩
  · exact (congrArg BitVec.toNat (hread 0 (by decide : 0 < 3))).trans hhundreds
  · exact (congrArg BitVec.toNat (hread 1 (by decide : 1 < 3))).trans htens
  · exact (congrArg BitVec.toNat (hread 2 (by decide : 2 < 3))).trans hones

/-- Settles O43: LD [I], Vx stores V0 to Vx. -/
theorem registerBlockStore : Obligations.RegisterBlockStore := by
  intro x s hm hin hclear
  rw [← State.regsUpTo_length s x] at hin hclear
  obtain ⟨t, hexec, hread, hsame⟩ := store_completes hm hin hclear rfl
  rw [State.regsUpTo_length] at hread hsame
  exact ⟨t, hexec, fun r hr => (hread r.val (Nat.lt_succ_of_le hr)).trans (State.regsUpTo_getD s x r hr), hsame⟩

/-! ### Loads -/

/-- A block load followed by the advance changes the registers and PC alone (R177). -/
theorem loadBlock_advance_sameBut (s : State) (x : RegIdx) : SameBut [.v, .pc] s (s.loadBlock x).advance :=
  sameBut_iff.2 (by simp [State.loadBlock])

/-- Settles O44: the reads come before the first register is written. -/
theorem registerBlockLoad : Obligations.RegisterBlockLoad := by
  refine fun x s => ⟨fun hin => ?_, fun hout => ?_⟩
  · refine ⟨_, execLoadRegs_eq_next_loadBlock.2 ⟨fun k hk => Nat.lt_succ_of_le (hin k hk), rfl⟩, fun r hr => ?_, fun r hr => ?_,
      rfl, loadBlock_advance_sameBut s x⟩
    · rw [State.advance_reg, State.loadBlock_reg, if_pos hr]
    · rw [State.advance_reg, State.loadBlock_reg, if_neg (not_le.2 hr)]
  · rw [exec, execLoadRegs, readBytes_out_of_bounds (by omega) (by omega), thenDo_fault]

/-! ### Transfers that fail -/

/-- From the program start on, no address is in the font region (R55). -/
theorem not_inFont_of_high {a : Nat} (h : 0x200 ≤ a) : ¬ inFont a := fun hf =>
  absurd (lt_of_inFont hf) (by omega)

/-- R170: a store that reaches above 0xFFF, from an address above the font region, names the first such address. -/
theorem store_out_of_bounds {m : Memory} {a : Nat} {bs : List Byte} (ha : 0x200 ≤ a) (hne : 0 < bs.length)
    (hout : 0x1000 < a + bs.length) : writeBytes m a bs = .fault (.memoryOutOfBounds (max a 0x1000)) :=
  writeBytes_out_of_bounds (List.ne_nil_of_length_pos hne) hout fun _ _ => not_inFont_of_high (by omega)

/-- Settles O45: the accesses of a transfer come before its first effect, and one that reaches past the end of memory starts above the
font region. -/
theorem transfersOutsideMemoryFault : Obligations.TransfersOutsideMemoryFault := by
  intro x y n s
  have hlen : (s.regsUpTo x).length = x.val + 1 := State.regsUpTo_length s x
  have hbcd : (bcdDigits (s.reg x)).length = 3 := rfl
  refine ⟨fun hout => ?_, fun hout => ?_, fun hn hout => ?_⟩
  · rw [exec, execLdB, store_out_of_bounds (by omega) (by omega) (by omega), thenDo_fault]
  · rw [exec, execStoreRegs, store_out_of_bounds (by omega) (by omega) (by omega), thenDo_fault]
  · rw [exec, execDrw, readBytes_out_of_bounds hn (by omega), thenDo_fault]

/-- Settles O46: the first font byte of the transfer ends it. -/
theorem fontWritesAreRefused : Obligations.FontWritesAreRefused := by
  refine fun x s j hfont hfirst => ⟨fun hj => ?_, fun hj => ?_⟩
  · rw [exec, execLdB, writeBytes_font hj hfont hfirst, thenDo_refused]
  · rw [exec, execStoreRegs, writeBytes_font (by rwa [State.regsUpTo_length]) hfont hfirst, thenDo_refused]

/-! ### Stored bytes read later -/

/-- R62: after a sequence of writes every byte is the stored one inside the transfer and the old one outside it. -/
theorem writeBytes_read_byteAfterStore {m m' : Memory} {a n : Nat} {bs : List Byte} {f : Nat → Byte} (hm : Memory.wf m)
    (h : writeBytes m a bs = .next m') (hlen : bs.length = n) (hf : ∀ k, k < n → bs.getD k 0 = f k) (b : Nat) :
    Memory.read m' b = byteAfterStore m a n f b := by
  subst hlen
  unfold byteAfterStore
  split
  · next hin =>
    rw [← hf (b - a) (by omega), ← writeBytes_read_inside hm h (by omega), Nat.add_sub_cancel' hin.1]
  · next hout => exact writeBytes_read_outside hm h hout

/-- R65, R102: a fetch from the memory that a sequence of writes left reads its two bytes there. -/
theorem fetch_after_writeBytes {u : State} {m : Memory} {a n : Nat} {bs : List Byte} {f : Nat → Byte} (hm : Memory.wf m)
    (h : writeBytes m a bs = .next u.mem) (hlen : bs.length = n) (hf : ∀ k, k < n → bs.getD k 0 = f k)
    (hpc : u.pc.toNat ≤ 0xFFE) :
    fetch u = .next (wordOfBytes (byteAfterStore m a n f u.pc.toNat) (byteAfterStore m a n f (u.pc.toNat + 1))) := by
  have hread := writeBytes_read_byteAfterStore hm h hlen hf
  exact fetch_eq_next.2 ⟨by omega, by rw [hread, hread]⟩

/-- R176: byte k of the register block is register k. -/
theorem regsUpTo_getD_ofNat (s : State) (x : RegIdx) {k : Nat} (hk : k < x.val + 1) :
    (s.regsUpTo x).getD k 0 = s.reg (Fin.ofNat 16 k) := by
  have hx := x.isLt
  have hval : (Fin.ofNat 16 k).val = k := Nat.mod_eq_of_lt (by omega)
  have hle : Fin.ofNat 16 k ≤ x := Fin.le_def.2 (by omega)
  have h := State.regsUpTo_getD s x (Fin.ofNat 16 k) hle
  rwa [hval] at h

/-- R175: digit k, from the hundreds on, by a division. -/
theorem bcdDigits_getD (w : Byte) {k : Nat} (hk : k < 3) :
    (bcdDigits w).getD k 0 = BitVec.ofNat 8 (w.toNat / 10 ^ (2 - k) % 10) := by
  have hw := w.isLt
  obtain rfl | rfl | rfl : k = 0 ∨ k = 1 ∨ k = 2 := by omega
  · have hhundreds : w.toNat / 10 ^ (2 - 0) % 10 = w.toNat / 100 := by omega
    rw [hhundreds]
    rfl
  · rfl
  · have hones : w.toNat / 10 ^ (2 - 2) % 10 = w.toNat % 10 := by omega
    rw [hones]
    rfl

/-- Settles O48: both bytes of the fetch are bytes of the memory the store left. -/
theorem storedBytesAreFetched : Obligations.StoredBytesAreFetched := by
  intro x s t u hm hmem hpc
  refine ⟨fun h => ?_, fun h => ?_⟩
  · obtain ⟨m, hwrite, rfl⟩ := execStoreRegs_eq_next.1 h
    have hstored : writeBytes s.mem s.i.toNat (s.regsUpTo x) = .next u.mem := hmem ▸ hwrite
    exact fetch_after_writeBytes hm hstored (State.regsUpTo_length s x) (fun k hk => regsUpTo_getD_ofNat s x hk) hpc
  · obtain ⟨m, hwrite, rfl⟩ := execLdB_eq_next.1 h
    have hstored : writeBytes s.mem s.i.toNat (bcdDigits (s.reg x)) = .next u.mem := hmem ▸ hwrite
    exact fetch_after_writeBytes hm hstored rfl (fun k hk => bcdDigits_getD (s.reg x) hk) hpc

/-- Settles O47: the store's addresses exist, so the load completes, and each byte it loads is the register stored there. -/
theorem blockStoreThenLoadRestores : Obligations.BlockStoreThenLoadRestores := by
  intro x s t u hm hstore hi hsame
  obtain ⟨m, hwrite, rfl⟩ := execStoreRegs_eq_next.1 hstore
  have hlen := State.regsUpTo_length s x
  have hin : ∀ k, k < x.val + 1 → u.i.toNat + k < 0x1000 := fun k hk => by
    rw [hi]
    exact ((writeBytes_eq_next hwrite).1 k (by omega)).1
  refine ⟨_, execLoadRegs_eq_next_loadBlock.2 ⟨hin, rfl⟩, fun k hk => ?_, fun k hk => ?_⟩
  · have hk' : k.val ≤ x.val := hk
    rw [State.advance_reg, State.loadBlock_reg, if_pos hk, hi, hsame k.val hk', State.advance_mem, State.setMem_mem,
      writeBytes_read_inside hm hwrite (by omega), State.regsUpTo_getD s x k hk]
  · rw [State.advance_reg, State.loadBlock_reg, if_neg (not_le.2 hk)]

/-- New memory changes memory alone (R39). -/
theorem setMem_sameBut (s : State) (m : Memory) : SameBut [.mem] s (s.setMem m) :=
  sameBut_iff.2 (by simp)

/-- Settles O59: the program area starts above the font region and has 0xE00 bytes. -/
theorem loaderFillsTheProgramArea : Obligations.LoaderFillsTheProgramArea := by
  refine fun image s hm => ⟨fun hfits => ?_, fun hlong => ?_⟩
  · have hin : InMemory 0x200 image.length := fun k hk => by omega
    have hclear : ClearOfFont 0x200 image.length := fun k _ => not_inFont_of_high (by omega)
    obtain ⟨m, hwrite⟩ := writeBytes_completes_of_clear (m := s.mem) hin hclear
    exact ⟨s.setMem m, by rw [load, config_progStart, hwrite, thenDo_next], fun _ hk => writeBytes_read_inside hm hwrite hk,
      fun _ hb => writeBytes_read_outside hm hwrite hb, setMem_sameBut s m⟩
  · rw [load, config_progStart, store_out_of_bounds (by omega) (by omega) (by omega), thenDo_fault]
    rfl

end Sys2Proof.Machine
end

section
/-! The sprite (spec/44_display.md R192 to R195), from what the pixel loop draws. -/

namespace Sys2Proof.Machine

/-- R192: a targeted pixel is inverted. -/
theorem drawn_pixel_of_target {x y : RegIdx} {n : Count} {s : State} {row : Row} {col : Col}
    (h : SpriteTargets s x y n row col) : (drawn x y n s).px.pixel row col = !s.px.pixel row col := by
  have hpx := (drawn_spec x y n s).1 row col
  rw [iff_true_left h] at hpx
  rw [Bool.eq_iff_iff, hpx, Bool.not_eq_true']

/-- R192: a pixel that is not targeted is as before. -/
theorem drawn_pixel_of_not_target {x y : RegIdx} {n : Count} {s : State} {row : Row} {col : Col}
    (h : ¬ SpriteTargets s x y n row col) : (drawn x y n s).px.pixel row col = s.px.pixel row col := by
  have hpx := (drawn_spec x y n s).1 row col
  rw [iff_false_left h, Bool.not_eq_false] at hpx
  rw [Bool.eq_iff_iff, hpx]

/-- R194: a collision is a targeted pixel that was 1. -/
theorem drawn_collision_iff {x y : RegIdx} {n : Count} {s : State} :
    (drawn x y n s).collision = true ↔ ∃ row col, SpriteTargets s x y n row col ∧ s.px.pixel row col = true :=
  (drawn_spec x y n s).2

/-- The state DRW leaves: the drawn display, marked dirty, the collision in VF, and the advance (R192). -/
def State.afterDraw (s : State) (x y : RegIdx) (n : Count) : State :=
  ((s.setScreen (drawn x y n s).px).setFlag (drawn x y n s).collision).advance

/-- R192: DRW completes exactly where the bytes of its sprite exist. -/
theorem execDrw_eq_next_afterDraw {x y : RegIdx} {n : Count} {s t : State} :
    execDrw x y n s = .next t ↔ (∀ k, k < n.val → s.i.toNat + k < 0x1000) ∧ t = s.afterDraw x y n :=
  execDrw_eq_next

/-- R194: VF after DRW is the collision. -/
theorem State.afterDraw_VF (s : State) (x y : RegIdx) (n : Count) :
    (s.afterDraw x y n).reg VF = flagByte (drawn x y n s).collision := State.setFlag_reg ..

/-- R194: of the registers, DRW changes VF alone. -/
theorem State.afterDraw_regsSameBut (s : State) (x y : RegIdx) (n : Count) : RegsSameBut [VF] s (s.afterDraw x y n) := by
  intro r hr
  rw [State.afterDraw, State.advance_reg, State.setFlag_reg, if_neg (List.ne_of_not_mem_cons hr), State.setScreen_reg]

/-- R192: DRW changes VF, the pixels, the redraw flag and PC alone. -/
theorem State.afterDraw_sameBut (s : State) (x y : RegIdx) (n : Count) :
    SameBut [.v, .px, .dirty, .pc] s (s.afterDraw x y n) :=
  sameBut_iff.2 (by simp [State.afterDraw])

/-- Settles O50: the pixel loop as one formula, and a flag that stands for a collision. -/
theorem drawSprite : Obligations.DrawSprite := by
  intro x y n s hin
  refine ⟨s.afterDraw x y n, execDrw_eq_next_afterDraw.2 ⟨fun k hk => Nat.lt_succ_of_le (hin k hk), rfl⟩,
    fun row col => drawn_pixel_of_target, fun row col => drawn_pixel_of_not_target, fun hhit => ?_, fun hmiss => ?_, rfl, rfl,
    s.afterDraw_regsSameBut x y n, s.afterDraw_sameBut x y n⟩
  · rw [State.afterDraw_VF, drawn_collision_iff.2 hhit]
    rfl
  · rw [State.afterDraw_VF, Bool.eq_false_iff.2 fun hcol => hmiss (drawn_collision_iff.1 hcol)]
    rfl

/-- R195: the same sprite at the same place targets the same pixels. -/
theorem spriteTargets_congr {s u : State} {x y : RegIdx} {n : Count} (hi : u.i = s.i) (hx : u.reg x = s.reg x)
    (hy : u.reg y = s.reg y)
    (hmem : ∀ k, k < n.val → Memory.read u.mem (s.i.toNat + k) = Memory.read s.mem (s.i.toNat + k)) (row : Row) (col : Col) :
    SpriteTargets u x y n row col ↔ SpriteTargets s x y n row col := by
  unfold SpriteTargets
  rw [hi, hx, hy]
  refine exists_congr fun r => exists_congr fun b => and_congr_right fun hr => ?_
  rw [hmem r hr]

/-- R195: a flag of 1 stands for its condition. -/
theorem flagByte_eq_one_iff {c : Bool} : flagByte c = 1 ↔ c = true := by
  cases c <;> decide

/-- Settles O51: the second draw inverts the pixels that the first one inverted, so it finds a targeted pixel 1 where the first found
it 0. -/
theorem drawingTwiceRestoresTheDisplay : Obligations.DrawingTwiceRestoresTheDisplay := by
  intro x y n s t u hdraw hpx hi hx hy hmem
  obtain ⟨hin, rfl⟩ := execDrw_eq_next_afterDraw.1 hdraw
  have hpx : u.px = (drawn x y n s).px := hpx
  have htarget := spriteTargets_congr hi hx hy hmem
  refine ⟨u.afterDraw x y n, execDrw_eq_next_afterDraw.2 ⟨by rwa [hi], rfl⟩, Screen.eq_of_pixel_eq fun row col => ?_, ?_⟩
  · by_cases hs : SpriteTargets s x y n row col
    · exact (drawn_pixel_of_target ((htarget row col).2 hs)).trans (by rw [hpx, drawn_pixel_of_target hs, Bool.not_not])
    · exact (drawn_pixel_of_not_target (mt (htarget row col).1 hs)).trans (by rw [hpx, drawn_pixel_of_not_target hs])
  · rw [State.afterDraw_VF, flagByte_eq_one_iff, drawn_collision_iff]
    refine exists_congr fun row => exists_congr fun col => ?_
    rw [htarget]
    refine and_congr_right fun hs => ?_
    rw [hpx, drawn_pixel_of_target hs, Bool.not_eq_true']

end Sys2Proof.Machine
end
